-- ==== Sys2Proof/Word.lean ====
section
/-! DEFINITION. The 32-bit word of the core and its plainest readings (00_scope.md R5, R8, R9, R10).

The spec numbers bits from the least significant end (R8), as `BitVec` does: `w.toNat` is the spec's `u(w)`,
`w.toInt` is `s(w)`, `w.msb` is `sign(w)` and `w.extractLsb' lo n` is `w[lo+n-1 : lo]`. -/

namespace Sys2Proof

/-- A word: the unit of register, memory slot and instruction (R5). -/
abbrev Word := BitVec 32

/-- A register index, a 5-bit field of an instruction (R5, 10_state.md R22). -/
abbrev RegIdx := BitVec 5

/-- The integer `n` is a 32-bit two's-complement value (R9): the range in which a checked sum is stored. -/
abbrev FitsSigned (n : Int) : Prop := -2147483648 ≤ n ∧ n ≤ 2147483647

end Sys2Proof
end

