-- ==== Sys2Proof/Syntax.lean ====
section
/-! DEFINITION. The instructions: one constructor per row of spec/opcode_table.json (30_encoding.md R63 to R66).

A constructor carries EVERY field of its format, in the order of the format's drawing, the fields the instruction
ignores as well (R67), so that no bit of a word is lost by decoding it (DESIGN CHOICE, safe: notes/assumptions/8.md).
Each field has its exact width (R61), so every term is an instruction word and every word of a row is a term. -/

namespace Sys2Proof

/-- An instruction of the core. -/
inductive Instr where
  /-- Register add, R111. `shamt` is ignored. -/
  | add (rs rt rd shamt : RegIdx)
  /-- Register bitwise-and, R112. `shamt` is ignored. -/
  | and (rs rt rd shamt : RegIdx)
  /-- Jump-register, R132. `rt`, `rd` and `shamt` are ignored. -/
  | jr (rs rt rd shamt : RegIdx)
  /-- System-call: the halt, R140. All four fields are ignored. -/
  | syscall (rs rt rd shamt : RegIdx)
  /-- Jump, R131. -/
  | j (address : BitVec 26)
  /-- Branch-on-equal, R130. -/
  | beq (rs rt : RegIdx) (immediate : BitVec 16)
  /-- Add-immediate, R113. -/
  | addi (rs rt : RegIdx) (immediate : BitVec 16)
  /-- And-immediate, R114. -/
  | andi (rs rt : RegIdx) (immediate : BitVec 16)
  /-- Load-word, R120. -/
  | lw (rs rt : RegIdx) (immediate : BitVec 16)
  /-- Store-word, R121. -/
  | sw (rs rt : RegIdx) (immediate : BitVec 16)
  /-- Jump-and-link, not supported: a no-op, R143. `address` is ignored. -/
  | jal (address : BitVec 26)
  deriving DecidableEq, Repr

end Sys2Proof
end

