-- ==== Sys2Proof/WellFormed.lean ====
section
/-! DEFINITION. What may be written down as an instruction, and the checks on it.

An `Instr` needs no range check: the widths of R61 are its types, and the spec rejects no word (30_encoding.md R62,
R69). Two checks remain. `Instr.isCanonical`: the ignored fields hold zero, as an assembler should leave them (R67).
`AsmLine.wellFormed`: the operands of a line in the assembly notation are inside the bounds of R73's table. The
notation is the spec's own; its one pseudo-instruction is `nop` (R74). -/

namespace Sys2Proof

/-- The canonical encoding's fields: zeros in the fields the instruction ignores (R67). -/
def Instr.canonical : Instr → Instr
  | .add rs rt rd _ => .add rs rt rd 0
  | .and rs rt rd _ => .and rs rt rd 0
  | .jr rs _ _ _ => .jr rs 0 0 0
  | .syscall _ _ _ _ => .syscall 0 0 0 0
  | .j address => .j address
  | .beq rs rt immediate => .beq rs rt immediate
  | .addi rs rt immediate => .addi rs rt immediate
  | .andi rs rt immediate => .andi rs rt immediate
  | .lw rs rt immediate => .lw rs rt immediate
  | .sw rs rt immediate => .sw rs rt immediate
  | .jal _ => .jal 0

/-- The instruction has zeros in the fields it ignores (R67). -/
def Instr.isCanonical (i : Instr) : Bool := i = i.canonical

/-- A line of R73's assembly notation, its operands in the order of the syntax column. `$n` is written `n`. -/
inductive AsmLine where
  | add (rd rs rt : Nat)
  | and (rd rs rt : Nat)
  | jr (rs : Nat)
  | syscall
  | addi (rt rs : Nat) (imm : Int)
  | andi (rt rs : Nat) (imm : Int)
  | lw (rt : Nat) (imm : Int) (rs : Nat)
  | sw (rt : Nat) (imm : Int) (rs : Nat)
  | beq (rs rt : Nat) (imm : Int)
  | j (imm : Int)
  /-- The pseudo-instruction of R74: the all-zero word. -/
  | nop
  deriving DecidableEq, Repr

/-- `$n` names a register: `0 <= n <= 31` (R73). -/
def isRegister (n : Nat) : Bool := n ≤ 31

/-- A 16-bit immediate that is sign-extended at use: `-32768 <= imm <= 32767` (R73). -/
def isSigned16 (imm : Int) : Bool := -32768 ≤ imm ∧ imm ≤ 32767

/-- The immediate of ANDI, zero-extended at use: `0 <= imm <= 65535` (R73). -/
def isUnsigned16 (imm : Int) : Bool := 0 ≤ imm ∧ imm ≤ 65535

/-- The address field of J: `0 <= imm < 2^26` (R73). -/
def isUnsigned26 (imm : Int) : Bool := 0 ≤ imm ∧ imm < 67108864

/-- The constraints R73 puts on the operands of a line. -/
def AsmLine.wellFormed : AsmLine → Bool
  | .add rd rs rt => isRegister rd && isRegister rs && isRegister rt
  | .and rd rs rt => isRegister rd && isRegister rs && isRegister rt
  | .jr rs => isRegister rs
  | .syscall => true
  | .addi rt rs imm => isRegister rt && isRegister rs && isSigned16 imm
  | .andi rt rs imm => isRegister rt && isRegister rs && isUnsigned16 imm
  | .lw rt imm rs => isRegister rt && isRegister rs && isSigned16 imm
  | .sw rt imm rs => isRegister rt && isRegister rs && isSigned16 imm
  | .beq rs rt imm => isRegister rs && isRegister rt && isSigned16 imm
  | .j imm => isUnsigned26 imm
  | .nop => true

end Sys2Proof
end

