-- ==== Sys2Proof/Decode.lean ====
section
/-! DEFINITION. Decoding and encoding of the 32-bit instruction word (30_encoding.md R60 to R67).

Decode is slicing and dispatch, and nothing more (R62): the fields of R61 are cut out once, then `opcode`, and `funct`
under opcode 0, select the row of R66. A word that selects no row is rejected by name; that rejection is no fault of
the machine: the cycle gives such a word the empty action (45_system_and_unrecognized.md R142). -/

namespace Sys2Proof

/-- Why a word is none of the table's instructions. Safe: the cycle executes such a word as R142's no-op. -/
inductive Unrecognised where
  /-- The opcode is in no row (R142, first half). -/
  | opcode (value : BitVec 6)
  /-- The opcode is 0 and the funct is in no row (R142, second half). -/
  | funct (value : BitVec 6)
  deriving DecidableEq, Repr

/-- `ir[31:26]` (R61). -/
def opcodeOf (w : Word) : BitVec 6 := w.extractLsb' 26 6
/-- `ir[25:21]` (R61). -/
def rsOf (w : Word) : RegIdx := w.extractLsb' 21 5
/-- `ir[20:16]` (R61). -/
def rtOf (w : Word) : RegIdx := w.extractLsb' 16 5
/-- `ir[15:11]` (R61). -/
def rdOf (w : Word) : RegIdx := w.extractLsb' 11 5
/-- `ir[10:6]` (R61). -/
def shamtOf (w : Word) : RegIdx := w.extractLsb' 6 5
/-- `ir[5:0]` (R61). -/
def functOf (w : Word) : BitVec 6 := w.extractLsb' 0 6
/-- `ir[15:0]` (R61). -/
def immediateOf (w : Word) : BitVec 16 := w.extractLsb' 0 16
/-- `ir[25:0]` (R61). -/
def addressOf (w : Word) : BitVec 26 := w.extractLsb' 0 26

/-- The second dispatch, on `funct`, of the R-format words (R66). -/
def decodeFunct (w : Word) : Except Unrecognised Instr :=
  if functOf w = 32 then .ok (.add (rsOf w) (rtOf w) (rdOf w) (shamtOf w))
  else if functOf w = 36 then .ok (.and (rsOf w) (rtOf w) (rdOf w) (shamtOf w))
  else if functOf w = 8 then .ok (.jr (rsOf w) (rtOf w) (rdOf w) (shamtOf w))
  else if functOf w = 12 then .ok (.syscall (rsOf w) (rtOf w) (rdOf w) (shamtOf w))
  else .error (.funct (functOf w))

/-- The instruction a word is, or why it is none (R66). Opcode 3 is the table's JAL row: PRESUMED, safe, since the
number is marked general knowledge there and JAL has the same effect as a word of no row (R143; notes/assumptions/7.md). -/
def decode (w : Word) : Except Unrecognised Instr :=
  if opcodeOf w = 0 then decodeFunct w
  else if opcodeOf w = 2 then .ok (.j (addressOf w))
  else if opcodeOf w = 3 then .ok (.jal (addressOf w))
  else if opcodeOf w = 4 then .ok (.beq (rsOf w) (rtOf w) (immediateOf w))
  else if opcodeOf w = 8 then .ok (.addi (rsOf w) (rtOf w) (immediateOf w))
  else if opcodeOf w = 12 then .ok (.andi (rsOf w) (rtOf w) (immediateOf w))
  else if opcodeOf w = 35 then .ok (.lw (rsOf w) (rtOf w) (immediateOf w))
  else if opcodeOf w = 43 then .ok (.sw (rsOf w) (rtOf w) (immediateOf w))
  else .error (.opcode (opcodeOf w))

/-- An R-format word (R63). -/
def encodeR (funct : BitVec 6) (rs rt rd shamt : RegIdx) : Word :=
  0#6 ++ rs ++ rt ++ rd ++ shamt ++ funct

/-- An I-format word (R64). -/
def encodeI (opcode : BitVec 6) (rs rt : RegIdx) (immediate : BitVec 16) : Word :=
  opcode ++ rs ++ rt ++ immediate

/-- A J-format word (R65). -/
def encodeJ (opcode : BitVec 6) (address : BitVec 26) : Word :=
  opcode ++ address

/-- The word of an instruction, from the numbers of R66 and the drawings of R63 to R65. -/
def encode : Instr → Word
  | .add rs rt rd shamt => encodeR 32 rs rt rd shamt
  | .and rs rt rd shamt => encodeR 36 rs rt rd shamt
  | .jr rs rt rd shamt => encodeR 8 rs rt rd shamt
  | .syscall rs rt rd shamt => encodeR 12 rs rt rd shamt
  | .j address => encodeJ 2 address
  | .beq rs rt immediate => encodeI 4 rs rt immediate
  | .addi rs rt immediate => encodeI 8 rs rt immediate
  | .andi rs rt immediate => encodeI 12 rs rt immediate
  | .lw rs rt immediate => encodeI 35 rs rt immediate
  | .sw rs rt immediate => encodeI 43 rs rt immediate
  | .jal address => encodeJ 3 address

/-- The `mask` column of R66 (and of the table's JAL row). -/
def tableMask : Instr → Word
  | .add _ _ _ _ | .and _ _ _ _ | .jr _ _ _ _ | .syscall _ _ _ _ => 0xFC00003F
  | .j _ | .beq _ _ _ | .addi _ _ _ | .andi _ _ _ | .lw _ _ _ | .sw _ _ _ | .jal _ => 0xFC000000

/-- The `match` column of R66 (and of the table's JAL row). -/
def tableMatch : Instr → Word
  | .add _ _ _ _ => 0x00000020
  | .and _ _ _ _ => 0x00000024
  | .jr _ _ _ _ => 0x00000008
  | .syscall _ _ _ _ => 0x0000000C
  | .j _ => 0x08000000
  | .beq _ _ _ => 0x10000000
  | .addi _ _ _ => 0x20000000
  | .andi _ _ _ => 0x30000000
  | .lw _ _ _ => 0x8C000000
  | .sw _ _ _ => 0xAC000000
  | .jal _ => 0x0C000000

/-- The word an assembly line stands for (R73, "fields set"; R74 for `nop`). -/
def assemble : AsmLine → Word
  | .add rd rs rt => encode (.add (.ofNat 5 rs) (.ofNat 5 rt) (.ofNat 5 rd) 0)
  | .and rd rs rt => encode (.and (.ofNat 5 rs) (.ofNat 5 rt) (.ofNat 5 rd) 0)
  | .jr rs => encode (.jr (.ofNat 5 rs) 0 0 0)
  | .syscall => encode (.syscall 0 0 0 0)
  | .addi rt rs imm => encode (.addi (.ofNat 5 rs) (.ofNat 5 rt) (.ofInt 16 imm))
  | .andi rt rs imm => encode (.andi (.ofNat 5 rs) (.ofNat 5 rt) (.ofInt 16 imm))
  | .lw rt imm rs => encode (.lw (.ofNat 5 rs) (.ofNat 5 rt) (.ofInt 16 imm))
  | .sw rt imm rs => encode (.sw (.ofNat 5 rs) (.ofNat 5 rt) (.ofInt 16 imm))
  | .beq rs rt imm => encode (.beq (.ofNat 5 rs) (.ofNat 5 rt) (.ofInt 16 imm))
  | .j imm => encode (.j (.ofInt 26 imm))
  | .nop => 0

/-- The word whose bits, numbered as the opcode table numbers them, are the low `nbits` bits of `w`; the rest are zero. -/
def tableWord (nbits w : Nat) : Word := BitVec.ofNat 32 (w % 2 ^ nbits)

/-- The instruction the decoder reads from a table row's bits; `none` where it rejects the word. -/
def decodeTableWord (nbits w : Nat) : Option Instr :=
  match decode (tableWord nbits w) with
  | .ok i => some i
  | .error _ => none

end Sys2Proof
end

