-- ==== Sys2Proof/Config.lean ====
section
/-! DEFINITION. The two open parameters of the hardware, with the spec's bounds on them (00_scope.md R6, R7).

The spec leaves both sizes to the model's argument. So they are arguments here: `Machine.State.resetWith` takes both,
every memory carries its own capacity, and the step works for every capacity. Only the name `Machine.State.reset`,
which takes no argument, needs an instance of them; it is the largest machine the spec admits
(DESIGN CHOICE, unsafe: notes/assumptions/1.md). -/

namespace Sys2Proof

/-- The largest number of instruction-memory slots (R6: `IMEM_SIZE <= 2^29 - 1`). -/
def Config.imemSizeMax : Nat := 2 ^ 29 - 1

/-- The largest number of data-memory slots (R7: `DMEM_SIZE <= 2^31`). -/
def Config.dmemSizeMax : Nat := 2 ^ 31

/-- `IMEM_SIZE` of the instance `State.reset`. DESIGN CHOICE, unsafe: the spec gives no number (D2). -/
def Config.imemSize : Nat := Config.imemSizeMax

/-- `DMEM_SIZE` of the instance `State.reset`. DESIGN CHOICE, unsafe: the spec gives no number (D3). -/
def Config.dmemSize : Nat := Config.dmemSizeMax

end Sys2Proof
end

