-- ==== Sys2Proof/Machine/State.lean ====
section
/-! DEFINITION. The state of the core: the six items of 10_state.md R20 and nothing else, its value after reset
(70_reset_and_hazards.md R170), and the ways a step can stop. -/

namespace Sys2Proof.Machine

/-- The run state of a run (R30): two values, no error state. -/
inductive RunState where
  | running
  | halted
  deriving DecidableEq, Repr

/-- A fixed-capacity array of 32-bit slots: instruction memory (20_memory.md R41) or data memory (R42).

`capacity` is the open size parameter of R6 or R7; no step changes it (notes/assumptions/3.md). `cells` lists the slots
that do not hold zero, by strictly rising index; an unlisted slot holds zero, the value every slot has at reset (R170).
A slot is one whole 32-bit value: this machine's memories have no bytes (R43, R44; notes/assumptions/2.md). -/
structure Memory where
  capacity : Nat
  cells : List (Nat × Word)
  deriving DecidableEq, Repr

/-- A memory is in the one canonical form: indexes strictly rising, no listed zero, nothing beyond the capacity. -/
abbrev Memory.wf (m : Memory) : Prop :=
  m.cells.Pairwise (fun a b => a.1 < b.1) ∧ ∀ c ∈ m.cells, c.2 ≠ 0 ∧ c.1 < m.capacity

/-- The architectural state (R20). Item 3 is `regs`; slot 0 of it is never written and reads go through `readReg`,
which returns zero for index 0 (R23). -/
structure State where
  /-- Item 1, the program counter: a two's-complement byte address (R26). -/
  pc : Word
  /-- Item 2, the instruction register (R29). -/
  ir : Word
  /-- Item 3, the register file `x[0..31]` (R22). -/
  regs : Vector Word 32
  /-- Item 4, instruction memory, indexed by word (R41). -/
  imem : Memory
  /-- Item 5, data memory, indexed by the effective address itself (R42). -/
  dmem : Memory
  /-- Item 6, the run state (R30), once Run has been invoked; `none` before, when the core is not RUNNING (R170;
  notes/assumptions/4.md). -/
  run : Option RunState
  deriving DecidableEq, Repr

/-- The five error kinds (60_exceptions.md R150). They are names; the source gives them no codes. -/
inductive ErrorKind where
  /-- Malformed input to the word type or the loader (R153). Never raised by a running core. -/
  | rangeError
  /-- An operation on digits that were never assigned (R154). Never raised by a running core. -/
  | stateError
  /-- Signed overflow of the checked addition (R151): ADD, ADDI, LW, SW. -/
  | overflowError
  /-- A data, instruction or transfer-target address outside its memory (R152): fetch, LW, SW, BEQ, J, JR. -/
  | boundsError
  /-- A write to register 0 (R155): ADD, AND, ADDI, ANDI, LW. -/
  | invariantError
  deriving DecidableEq, Repr

/-- A fatal fault: its kind, one of the five of R150, and in `left` the state it leaves for the host to inspect (R158).
It is terminal: there is no handler and no step leads on from it (R159, R161; notes/assumptions/6.md). -/
inductive Fault where
  /-- R153. Raised by no step; the kind belongs to the host boundary. Safe: the spec names it so. -/
  | rangeError (left : State)
  /-- R154. Raised by no step; the kind belongs to the word type. Safe: the spec names it so. -/
  | stateError (left : State)
  /-- R151. Raised by ADD, ADDI, LW and SW. Safe: the spec stops the machine here. -/
  | overflowError (left : State)
  /-- R152. Raised by the fetch and by LW, SW, BEQ, J and JR. Safe: the spec stops the machine here. -/
  | boundsError (left : State)
  /-- R155. Raised by ADD, AND, ADDI, ANDI and LW with destination 0. Safe: the spec stops the machine here. -/
  | invariantError (left : State)
  deriving DecidableEq, Repr

/-- Why a step has no meaning. -/
inductive Refusal where
  /-- Raised by `exec` for an instruction without a meaning: none at present. Safe: nothing can be proved of a next state. -/
  | notModelled (mnemonic : String)
  /-- Raised by `step` in a halted machine, which takes no step (10_state.md R30, 41_cycle.md R106;
  notes/assumptions/5.md). Safe: the spec gives such a state no step. -/
  | coreHalted
  /-- Raised by `step` in a machine on which Run has not been invoked (70_reset_and_hazards.md R170; 41_cycle.md R100;
  notes/assumptions/4.md). Safe: the core takes steps only in RUNNING. -/
  | coreNotStarted
  deriving DecidableEq, Repr

/-- The state after the construction of a Machine with the two given sizes (R170): every slot zero, and not RUNNING
until Run is invoked. -/
def State.resetWith (imemSize dmemSize : Nat) : State where
  pc := 0
  ir := 0
  regs := Vector.replicate 32 0
  imem := { capacity := imemSize, cells := [] }
  dmem := { capacity := dmemSize, cells := [] }
  run := none

/-- The machine right after reset, at the sizes Config names (notes/assumptions/1.md). -/
def State.reset : State := State.resetWith Config.imemSize Config.dmemSize

end Sys2Proof.Machine
end

