-- ==== Sys2Proof/Machine/Ops.lean ====
section
/-! DEFINITION. The named operations over registers and memories, and how an instruction ends: it completes, or it
raises a fatal fault (10_state.md R23, R24; 20_memory.md R41 to R47; 60_exceptions.md R158, R159). -/

namespace Sys2Proof.Machine

/-- Read of general register `i` (R25). Register 0 reads zero always (R23). Reads have no side effect and cannot fault. -/
def readReg (s : State) (i : RegIdx) : Word :=
  if i = 0 then 0 else s.regs[i.toNat]'i.isLt

/-- The register write of R24. The index test comes first and the write faults for every value when the index is 0.
R24's range validation cannot fail for a 32-bit word, so it is left out, as R24 allows. -/
def writeReg (i : RegIdx) (v : Word) (s : State) : Except ErrorKind State :=
  if i = 0 then .error .invariantError
  else .ok { s with regs := s.regs.set i.toNat v i.isLt }

/-- The value in slot `k` of a list of cells: the listed value, or zero (R170). -/
def cellsRead : List (Nat × Word) → Nat → Word
  | [], _ => 0
  | c :: cs, k => if c.1 = k then c.2 else cellsRead cs k

/-- Puts a cell before the first one with a larger index. -/
def cellsInsert (k : Nat) (v : Word) : List (Nat × Word) → List (Nat × Word)
  | [] => [(k, v)]
  | c :: cs => if k < c.1 then (k, v) :: c :: cs else c :: cellsInsert k v cs

/-- The cells with slot `k` replaced: a zero is not listed, so equal contents are equal lists. -/
def cellsWrite (cells : List (Nat × Word)) (k : Nat) (v : Word) : List (Nat × Word) :=
  let others := cells.filter (fun c => c.1 ≠ k)
  if v = 0 then others else cellsInsert k v others

/-- `Fetch(k)` or `MemRead(k, 1)`: the word in slot `k` (00_scope.md R10, R47). Callers check the index first. -/
def Memory.read (m : Memory) (k : Nat) : Word := cellsRead m.cells k

/-- `MemWrite(k, 1, v)`: the whole-word replacement of slot `k` (R10, R21, R47). Callers check the index first. -/
def Memory.write (m : Memory) (k : Nat) (v : Word) : Memory :=
  { m with cells := cellsWrite m.cells k v }

/-- The integer `a` is the index of a slot of `m`: `0 <= a < capacity` (R48). -/
abbrev Memory.HasSlot (m : Memory) (a : Int) : Prop := 0 ≤ a ∧ a < m.capacity

/-- The fault of a kind, with the state it leaves. -/
def faultOf : ErrorKind → State → Fault
  | .rangeError, s => .rangeError s
  | .stateError, s => .stateError s
  | .overflowError, s => .overflowError s
  | .boundsError, s => .boundsError s
  | .invariantError, s => .invariantError s

/-- The kind of a fault: what a fault reports (R150). -/
def Fault.kind : Fault → ErrorKind
  | .rangeError _ => .rangeError
  | .stateError _ => .stateError
  | .overflowError _ => .overflowError
  | .boundsError _ => .boundsError
  | .invariantError _ => .invariantError

/-- The state a fault leaves behind (R158). -/
def Fault.left : Fault → State
  | .rangeError s => s
  | .stateError s => s
  | .overflowError s => s
  | .boundsError s => s
  | .invariantError s => s

/-- `raise E` (R10): this machine's whole exception entry. The run ends with the fault `E`; nothing is saved, no mode
changes, control goes nowhere (R159), and the state left is `s` unchanged (R158). There is no return from it (R161). -/
def raise (kind : ErrorKind) (s : State) : Host.Outcome State Fault Refusal :=
  .fault (faultOf kind s)

/-- How an instruction's action on `s` ends: Next with its new state, or the fault it raised, with no effect of the
instruction applied (R12, R104, R158). -/
def finish (s : State) : Except ErrorKind State → Host.Outcome State Fault Refusal
  | .ok t => .next t
  | .error kind => raise kind s

end Sys2Proof.Machine
end

