-- ==== Sys2Proof/Machine/Flags.lean ====
section
/-! DEFINITION. The one condition the ALU computes. The core has no flags and no condition codes (10_state.md R35):
signed overflow is not recorded, it is the fatal fault of the checked addition (42_arithmetic_logic.md R110). -/

namespace Sys2Proof.Machine

/-- The sign comparison of R110: both addends have one sign and the sum has the other. -/
def signOverflow (a b r : Word) : Bool := a.msb == b.msb && r.msb != a.msb

/-- `checked_add(a, b)` of R110, the addition of ADD, ADDI and the effective address. `a + b` is the 32-bit
two's-complement sum, wrapped (40_bitvector.md R91). -/
def checkedAdd (a b : Word) : Except ErrorKind Word :=
  let r := a + b
  if signOverflow a b r then .error .overflowError else .ok r

end Sys2Proof.Machine
end

