-- ==== Sys2Proof/Machine/Operands.lean ====
section
/-! DEFINITION. Every operand form of 30_encoding.md R68: extended immediates, the effective address
(43_load_store.md R122), and the targets of control transfers with their bounds check (44_control_transfer.md
R130, R131, R133). In these definitions `s.pc` is the incremented program counter. -/

namespace Sys2Proof.Machine

/-- `word(sext_16(immediate))`: bits 31 to 16 are copies of immediate bit 15 (R68). -/
def sext16 (immediate : BitVec 16) : Word := immediate.signExtend 32

/-- `word(zext_16(immediate))`: bits 31 to 16 are zero (R68, R114). -/
def zext16 (immediate : BitVec 16) : Word := immediate.zeroExtend 32

/-- The bounds test of R122 on a computed address, after the sum's overflow test. -/
def checkSlot (m : Memory) (e : Word) : Except ErrorKind Nat :=
  if m.HasSlot e.toInt then .ok e.toNat else .error .boundsError

/-- `effective_address(rs, immediate)` of R122: the checked sum, then the bounds test. The result is the slot index
itself: not divided, not aligned (20_memory.md R43, R45). -/
def effectiveAddress (s : State) (rs : RegIdx) (immediate : BitVec 16) : Except ErrorKind Nat :=
  (checkedAdd (readReg s rs) (sext16 immediate)).bind (checkSlot s.dmem)

/-- `check_target(t)` of R133: the target must select an existing slot of instruction memory. -/
def checkTarget (s : State) (t : Int) : Except ErrorKind Unit :=
  if t < 0 ∨ t.tdiv 4 ≥ s.imem.capacity then .error .boundsError else .ok ()

/-- BEQ's target, an unbounded integer: `s(pc) + sext_16(immediate) * 4` (R130). -/
def branchTarget (s : State) (immediate : BitVec 16) : Int :=
  s.pc.toInt + immediate.toInt * 4

/-- J's target: `pc[31:28] ++ address ++ 00` (R131). -/
def jumpTarget (s : State) (address : BitVec 26) : Word :=
  s.pc.extractLsb' 28 4 ++ address ++ 0#2

/-- A taken control transfer to byte address `t`: the bounds check, then `pc <- word(t)` (R133). There is no delay slot
(R136) and no alignment check (R134). -/
def transferTo (t : Int) (s : State) : Except ErrorKind State :=
  (checkTarget s t).bind fun _ => .ok { s with pc := BitVec.ofInt 32 t }

end Sys2Proof.Machine
end

