-- ==== Sys2Proof/Machine/ArithmeticLogic.lean ====
section
/-! DEFINITION. The meanings of ADD, AND, ADDI and ANDI (42_arithmetic_logic.md R111 to R114). The sources are read
before the destination is written (10_state.md R25), and the register write is the last action (R157). -/

namespace Sys2Proof.Machine

/-- ADD (R111): `x[rd] <- checked_add(x[rs], x[rt])`. -/
def execAdd (rs rt rd : RegIdx) (s : State) : Host.Outcome State Fault Refusal :=
  finish s ((checkedAdd (readReg s rs) (readReg s rt)).bind fun r => writeReg rd r s)

/-- AND (R112): `x[rd] <- x[rs] & x[rt]`. -/
def execAnd (rs rt rd : RegIdx) (s : State) : Host.Outcome State Fault Refusal :=
  finish s (writeReg rd (readReg s rs &&& readReg s rt) s)

/-- ADDI (R113): `x[rt] <- checked_add(x[rs], sext_16(immediate))`. -/
def execAddi (rs rt : RegIdx) (immediate : BitVec 16) (s : State) : Host.Outcome State Fault Refusal :=
  finish s ((checkedAdd (readReg s rs) (sext16 immediate)).bind fun r => writeReg rt r s)

/-- ANDI (R114): `x[rt] <- x[rs] & zext_16(immediate)`. -/
def execAndi (rs rt : RegIdx) (immediate : BitVec 16) (s : State) : Host.Outcome State Fault Refusal :=
  finish s (writeReg rt (readReg s rs &&& zext16 immediate) s)

end Sys2Proof.Machine
end

