-- ==== Sys2Proof/Machine/ControlTransfer.lean ====
section
/-! DEFINITION. The meanings of JR, J and BEQ (44_control_transfer.md R130 to R132). `s.pc` is the incremented program
counter. None links (R136). -/

namespace Sys2Proof.Machine

/-- JR (R132): `pc <- x[rs]`, all 32 bits, after the bounds check of its signed value. -/
def execJr (rs : RegIdx) (s : State) : Host.Outcome State Fault Refusal :=
  finish s (transferTo (readReg s rs).toInt s)

/-- J (R131): `pc <- pc[31:28] ++ address ++ 00`, after the bounds check. -/
def execJ (address : BitVec 26) (s : State) : Host.Outcome State Fault Refusal :=
  finish s (transferTo (jumpTarget s address).toInt s)

/-- BEQ (R130): when `x[rs] = x[rt]`, `pc <- pc + sext_16(immediate) * 4` after the bounds check; otherwise nothing. -/
def execBeq (rs rt : RegIdx) (immediate : BitVec 16) (s : State) : Host.Outcome State Fault Refusal :=
  finish s (if readReg s rs = readReg s rt then transferTo (branchTarget s immediate) s else .ok s)

end Sys2Proof.Machine
end

