-- ==== Sys2Proof/Machine/LoadStore.lean ====
section
/-! DEFINITION. The meanings of LW and SW (43_load_store.md R120, R121). They reach data memory only (20_memory.md R42). -/

namespace Sys2Proof.Machine

/-- LW (R120): `x[rt] <- DMEM[EA]`. OverflowError, then BoundsError, then InvariantError when `rt = 0`. -/
def execLw (rs rt : RegIdx) (immediate : BitVec 16) (s : State) : Host.Outcome State Fault Refusal :=
  finish s ((effectiveAddress s rs immediate).bind fun ea => writeReg rt (s.dmem.read ea) s)

/-- SW (R121): `DMEM[EA] <- x[rt]`. OverflowError, then BoundsError; `rt = 0` stores zero. -/
def execSw (rs rt : RegIdx) (immediate : BitVec 16) (s : State) : Host.Outcome State Fault Refusal :=
  finish s ((effectiveAddress s rs immediate).bind fun ea =>
    .ok { s with dmem := s.dmem.write ea (readReg s rt) })

end Sys2Proof.Machine
end

