-- ==== Sys2Proof/Machine/System.lean ====
section
/-! DEFINITION. The halt, the unsupported jump-and-link and the words of no row (45_system_and_unrecognized.md R140,
R142, R143). -/

namespace Sys2Proof.Machine

/-- SYSCALL (R140): the run state becomes HALTED; no register and no memory slot changes. It cannot fault. -/
def execSyscall (s : State) : Host.Outcome State Fault Refusal :=
  finish s (.ok { s with run := some .halted })

/-- The empty action of R142: nothing. -/
def noEffect (s : State) : Host.Outcome State Fault Refusal :=
  finish s (.ok s)

/-- JAL (R143): not supported. It neither jumps nor links: the no-op of R142. -/
def execJal (s : State) : Host.Outcome State Fault Refusal :=
  noEffect s

/-- A word that is in no row of the table (R142): the no-op. It cannot fault. -/
def execUnrecognised (s : State) : Host.Outcome State Fault Refusal :=
  noEffect s

end Sys2Proof.Machine
end

