-- ==== Sys2Proof/Machine/Dispatch.lean ====
section
/-! DEFINITION. The execute action of the cycle (41_cycle.md R103, R104): one arm per instruction. The ignored fields
of R67 are the arms' underscores. -/

namespace Sys2Proof.Machine

def exec (i : Instr) (s : State) : Host.Outcome State Fault Refusal :=
  match i with
  | .add rs rt rd _ => Sys2Proof.Machine.execAdd rs rt rd s
  | .and rs rt rd _ => Sys2Proof.Machine.execAnd rs rt rd s
  | .jr rs _ _ _ => Sys2Proof.Machine.execJr rs s
  | .syscall _ _ _ _ => Sys2Proof.Machine.execSyscall s
  | .j address => Sys2Proof.Machine.execJ address s
  | .beq rs rt immediate => Sys2Proof.Machine.execBeq rs rt immediate s
  | .addi rs rt immediate => Sys2Proof.Machine.execAddi rs rt immediate s
  | .andi rs rt immediate => Sys2Proof.Machine.execAndi rs rt immediate s
  | .lw rs rt immediate => Sys2Proof.Machine.execLw rs rt immediate s
  | .sw rs rt immediate => Sys2Proof.Machine.execSw rs rt immediate s
  | .jal _ => Sys2Proof.Machine.execJal s

end Sys2Proof.Machine
end

