-- ==== Sys2Proof/Machine/Cycle.lean ====
section
/-! DEFINITION. The four actions of one cycle: fetch, advance, decode and dispatch, execute (41_cycle.md R100 to R104). -/

namespace Sys2Proof.Machine

/-- The program counter selects an existing instruction slot: R101's fetch check passes. -/
abbrev FetchInRange (s : State) : Prop :=
  0 ≤ s.pc.toInt ∧ s.pc.toInt.tdiv 4 < s.imem.capacity

/-- The word index `trunc(s(pc) / 4)` of the slot a byte address selects (R101). The two low bits are dropped (R46). -/
def fetchIndex (pc : Word) : Nat := (pc.toInt.tdiv 4).toNat

/-- The word the fetch of this step reads. -/
def fetchedWord (s : State) : Word := s.imem.read (fetchIndex s.pc)

/-- Fetch (R101): the bounds check, before anything changes, then `ir <- IMEM[trunc(s(pc) / 4)]`. -/
def fetch (s : State) : Except ErrorKind State :=
  if FetchInRange s then .ok { s with ir := fetchedWord s } else .error .boundsError

/-- Advance (R102): `pc <- word(s(pc) + 4)`, in every step that passed the fetch check, with no overflow test. -/
def advance (s : State) : State := { s with pc := s.pc + 4 }

/-- Decode, dispatch and execute (R103, R104). A word of no row selects the empty action (R142). -/
def dispatch (s : State) : Host.Outcome State Fault Refusal :=
  match decode s.ir with
  | .ok i => exec i s
  | .error _ => execUnrecognised s

/-- The whole cycle of R100. A fault of the fetch leaves `s` itself; a fault of the execute action leaves the state
after the advance (R158). -/
def cycle (s : State) : Host.Outcome State Fault Refusal :=
  match fetch s with
  | .ok f => dispatch (advance f)
  | .error kind => raise kind s

end Sys2Proof.Machine
end

