-- ==== Sys2Proof/Machine/Step.lean ====
section
/-! DEFINITION. One step of the core, and how a word is placed where the next step fetches it. -/

namespace Sys2Proof.Machine

/-- One step (00_scope.md R12, 41_cycle.md R100). The core steps only while RUNNING: not before Run
(70_reset_and_hazards.md R170; notes/assumptions/4.md) and not once HALTED (10_state.md R30; notes/assumptions/5.md). -/
def step (s : State) : Host.Outcome State Fault Refusal :=
  match s.run with
  | some .running => cycle s
  | some .halted => .refused .coreHalted
  | none => .refused .coreNotStarted

/-- `s` with the word of the given bits in the instruction slot the next step fetches, and RUNNING: the host's Load of
that slot and its Run (10_state.md R31, 70_reset_and_hazards.md R173; notes/assumptions/4.md). -/
def State.withFetchWord (s : State) (nbits w : Nat) : State :=
  { s with imem := s.imem.write (fetchIndex s.pc) (tableWord nbits w), run := some .running }

end Sys2Proof.Machine
end

