-- ==== Sys2Proof/Machine/WordType.lean ====
section
/-! DEFINITION. The source's word type at digit level (40_bitvector.md R80 to R92): a sequence of 0 to 32 binary
digits, the most significant first, and its primitive operations with their failures.

The core itself computes on `BitVec` values, as the head of 40_bitvector.md allows; these definitions give the
primitives the source prescribes, so that the two can be proved to agree (notes/assumptions/13.md). The host boundary
uses them (10_state.md R31, R33). Format tags are left out (R95, 00_scope.md R4). -/

namespace Sys2Proof.Machine

/-- A BitVector of the source: its digits, the most significant first (R80). The empty list is an unset vector. -/
abbrev Digits := List Bool

/-- The digits of an `n`-bit value: digit `p` is spec bit `n - 1 - p` (R80). -/
def digitsOf {n : Nat} (x : BitVec n) : Digits := (List.range n).map x.getMsbD

/-- The positional value of a digit sequence, zero for the empty one. -/
def digitsValue (v : Digits) : Nat := v.foldl (fun acc d => 2 * acc + d.toNat) 0

/-- `fromUnsigned(n)` (R81): standard positional binary in 32 digits; RangeError outside `[0, 2^32 - 1]`. -/
def bvFromUnsigned (n : Int) : Except ErrorKind Digits :=
  if n < 0 ∨ n > 4294967295 then .error .rangeError
  else .ok ((List.range 32).map fun p => n.toNat.testBit (31 - p))

/-- `toUnsigned()` (R83): StateError when no digits are set. -/
def bvToUnsigned : Digits → Except ErrorKind Nat
  | [] => .error .stateError
  | d :: ds => .ok (digitsValue (d :: ds))

/-- `invert()` (R85): flips every digit; StateError when no digits are set. -/
def bvInvert : Digits → Except ErrorKind Digits
  | [] => .error .stateError
  | d :: ds => .ok ((d :: ds).map not)

/-- The ripple carry of R86 over digits given least significant first. -/
def rippleIncrement : Digits → Digits
  | [] => []
  | false :: ds => true :: ds
  | true :: ds => false :: rippleIncrement ds

/-- `incrementOne()` (R86): wraps from all ones to all zeros and raises nothing. -/
def bvIncrementOne (v : Digits) : Digits := (rippleIncrement v.reverse).reverse

/-- `fromSigned(n)` (R82): the two-step negation of the source, in its order. -/
def bvFromSigned (n : Int) : Except ErrorKind Digits :=
  if n < -2147483648 ∨ n > 2147483647 then .error .rangeError
  else
    (bvFromUnsigned n.natAbs).bind fun v =>
      if n < 0 then (bvInvert v).map bvIncrementOne else .ok v

/-- `toSigned()` (R84): minus the unsigned value of the negation when the first digit is 1. -/
def bvToSigned : Digits → Except ErrorKind Int
  | [] => .error .stateError
  | false :: ds => (bvToUnsigned (false :: ds)).map Int.ofNat
  | true :: ds =>
    (bvInvert (true :: ds)).bind fun t => (bvToUnsigned (bvIncrementOne t)).map fun u => -(u : Int)

/-- `slice(start, length)` (R88): `start` counts from the most significant digit; RangeError outside the vector. -/
def bvSlice (v : Digits) (start length : Int) : Except ErrorKind Digits :=
  if 0 ≤ start ∧ 0 ≤ length ∧ start + length ≤ v.length then
    .ok ((v.drop start.toNat).take length.toNat)
  else .error .rangeError

/-- `concat(other)` (R89): `self` in the more significant positions; RangeError beyond 32 digits. -/
def bvConcat (self other : Digits) : Except ErrorKind Digits :=
  if self.length + other.length > 32 then .error .rangeError else .ok (self ++ other)

/-- The word whose digits are `v`, for a `v` of 32 digits. -/
def wordOfDigits (v : Digits) : Word := BitVec.ofNat 32 (digitsValue v)

end Sys2Proof.Machine
end

