-- ==== Sys2Proof/Machine/HostPort.lean ====
section
/-! DEFINITION. The host's access to the state: Load, the presets, Run and Inspect (10_state.md R31 to R33; 00_scope.md
R15; 70_reset_and_hazards.md R173).

These build the launch state of a run from `State.resetWith` and read the state after the run. When the host may use
them is `HostMove`, in Safety: the step function has no host input, so the host has no move during a run (00_scope.md
R11, 20_memory.md R53; notes/assumptions/10.md). -/

namespace Sys2Proof.Machine

/-- Load (R31): the 32-digit word `w` at word index `k`; RangeError for an index outside the array or another length. -/
def hostLoad (k : Int) (w : Digits) (s : State) : Except ErrorKind State :=
  if ¬ s.imem.HasSlot k then .error .rangeError
  else if w.length ≠ 32 then .error .rangeError
  else .ok { s with imem := s.imem.write k.toNat (wordOfDigits w) }

/-- Preset of register `i` to the number `n` (R33): the register write of R24, whose index test comes first and whose
range validation can fail here, with RangeError (R82). -/
def hostPresetReg (i : RegIdx) (n : Int) (s : State) : Except ErrorKind State :=
  if i = 0 then .error .invariantError
  else (bvFromSigned n).bind fun v => writeReg i (wordOfDigits v) s

/-- Preset of data-memory slot `a` to the word `v` (R33): BoundsError outside the array. -/
def hostPresetSlot (a : Int) (v : Word) (s : State) : Except ErrorKind State :=
  if s.dmem.HasSlot a then .ok { s with dmem := s.dmem.write a.toNat v } else .error .boundsError

/-- Run (R15, R170, R171): on a Machine that has not run, the core becomes RUNNING at byte address 0. `none` where Run
has been invoked before: a second run is outside the spec (41_cycle.md R106, D13; notes/assumptions/10.md). -/
def hostRun (s : State) : Option State :=
  match s.run with
  | none => some { s with pc := 0, run := some .running }
  | some _ => none

/-- Inspect of the program counter (R32). `ir` is not in the source's list, so there is no Inspect of it (R29;
notes/assumptions/11.md). -/
def inspectPc (s : State) : Word := s.pc

/-- Inspect of a register (R32). -/
def inspectReg (i : RegIdx) (s : State) : Word := readReg s i

/-- Inspect of an instruction-memory slot (R32); `none` where there is no such slot. -/
def inspectInstruction (k : Int) (s : State) : Option Word :=
  if s.imem.HasSlot k then some (s.imem.read k.toNat) else none

/-- Inspect of a data-memory slot (R32); `none` where there is no such slot. -/
def inspectData (a : Int) (s : State) : Option Word :=
  if s.dmem.HasSlot a then some (s.dmem.read a.toNat) else none

end Sys2Proof.Machine
end

