-- ==== Sys2Proof/Machine/Run.lean ====
section
/-! DEFINITION. The run (41_cycle.md R105, R106): steps until the outcome is Halted or Fault, under fuel, since a run
may never end. -/

namespace Sys2Proof.Machine

/-- How far a run has come. -/
inductive RunEnd where
  /-- Outcome Halted, in this state (R106). -/
  | halted (s : State)
  /-- Outcome Fault (R106); the fault holds the state it left. -/
  | faulted (f : Fault)
  /-- The fuel is used up and the core is still RUNNING. -/
  | unfinished (s : State)
  /-- Run has not been invoked, so there is no run (70_reset_and_hazards.md R170). -/
  | notStarted (s : State)
  deriving DecidableEq, Repr

/-- At most `n` steps from `s`, stopping at the halt or at the first fault (R105). -/
def runFor : Nat → State → RunEnd
  | 0, s =>
    match s.run with
    | some .halted => .halted s
    | some .running => .unfinished s
    | none => .notStarted s
  | n + 1, s =>
    match s.run with
    | some .halted => .halted s
    | none => .notStarted s
    | some .running =>
      match step s with
      | .next t => runFor n t
      | .fault f => .faulted f
      | .refused _ => .unfinished s

end Sys2Proof.Machine
end

