-- ==== Sys2Proof/Safety.lean ====
section
/-! DEFINITION. The terms claims are stated in: launch states, reachable states, the machine's invariants, frames, and
which instruction may do what (10_state.md R25, R34; 44_control_transfer.md R135; 60_exceptions.md R156). -/

namespace Sys2Proof.Machine

/-- The two sizes are inside the spec's bounds (00_scope.md R6, R7). -/
def SizesInBounds (s : State) : Prop :=
  1 ≤ s.imem.capacity ∧ s.imem.capacity ≤ Config.imemSizeMax ∧
  1 ≤ s.dmem.capacity ∧ s.dmem.capacity ≤ Config.dmemSizeMax

/-- Both memories are in their canonical form. -/
def MemoriesCanonical (s : State) : Prop := s.imem.wf ∧ s.dmem.wf

/-- The slot of the hard-wired register holds zero (R23, R170). -/
def ZeroSlotHoldsZero (s : State) : Prop := s.regs[0] = 0

/-- The range of the program counter between steps (R135): `0 <= s(pc) <= 4 * IMEM_SIZE + 3`. -/
def PcInRange (s : State) : Prop :=
  0 ≤ s.pc.toInt ∧ s.pc.toInt ≤ 4 * s.imem.capacity + 3

/-- The program counter is a multiple of 4 (R27). -/
def PcAligned (s : State) : Prop := 4 ∣ s.pc.toInt

/-- A Machine before its run (R170, R173): constructed, perhaps loaded and preset, Run not yet invoked. -/
def IsFresh (s : State) : Prop :=
  s.pc = 0 ∧ s.ir = 0 ∧ s.run = none ∧ ZeroSlotHoldsZero s ∧ SizesInBounds s ∧ MemoriesCanonical s

/-- A move of the host that changes state before Run: Load or a preset, permitted only while the core is not running
(R31, R33). -/
inductive HostMove (s t : State) : Prop where
  | load (k : Int) (w : Digits) : s.run ≠ some .running → hostLoad k w s = .ok t → HostMove s t
  | presetReg (i : RegIdx) (n : Int) : s.run ≠ some .running → hostPresetReg i n s = .ok t → HostMove s t
  | presetSlot (a : Int) (v : Word) : s.run ≠ some .running → hostPresetSlot a v s = .ok t → HostMove s t

/-- A launch state (R34): the state in which the first step of a run is taken. -/
def IsLaunch (s : State) : Prop :=
  s.pc = 0 ∧ s.ir = 0 ∧ s.run = some .running ∧ ZeroSlotHoldsZero s ∧ SizesInBounds s ∧ MemoriesCanonical s

/-- The states of runs: a launch state, and what a step gives from one of them (R105). -/
inductive Reachable : State → Prop where
  | launch {s : State} : IsLaunch s → Reachable s
  | step {s t : State} : Reachable s → step s = .next t → Reachable t

/-- Two memories have the same size and read the same in every slot. -/
def SameSlots (m m' : Memory) : Prop :=
  m'.capacity = m.capacity ∧ ∀ k, m'.read k = m.read k

/-- Every register reads as before. -/
def SameRegs (s t : State) : Prop := ∀ r, readReg t r = readReg s r

/-- From `s` to `t` only general register `d` may have changed. -/
def OnlyRegChanges (d : RegIdx) (s t : State) : Prop :=
  (∀ r, r ≠ d → readReg t r = readReg s r) ∧ t.pc = s.pc ∧ t.ir = s.ir ∧ t.run = s.run ∧
  SameSlots s.imem t.imem ∧ SameSlots s.dmem t.dmem

/-- From `s` to `t` only the program counter may have changed. -/
def OnlyPcChanges (s t : State) : Prop :=
  SameRegs s t ∧ t.ir = s.ir ∧ t.run = s.run ∧ SameSlots s.imem t.imem ∧ SameSlots s.dmem t.dmem

/-- From `s` to `t` only data-memory slot `a` may have changed. -/
def OnlySlotChanges (a : Nat) (s t : State) : Prop :=
  SameRegs s t ∧ t.pc = s.pc ∧ t.ir = s.ir ∧ t.run = s.run ∧ SameSlots s.imem t.imem ∧
  t.dmem.capacity = s.dmem.capacity ∧ ∀ b, b ≠ a → t.dmem.read b = s.dmem.read b

/-- From `s` to `t` only the run state may have changed. -/
def OnlyRunStateChanges (s t : State) : Prop :=
  SameRegs s t ∧ t.pc = s.pc ∧ t.ir = s.ir ∧ SameSlots s.imem t.imem ∧ SameSlots s.dmem t.dmem

/-- The byte address `t` selects a slot of instruction memory: `0 <= t <= 4 * IMEM_SIZE - 1` (R133). -/
def TargetInImem (s : State) (t : Int) : Prop := 0 ≤ t ∧ t ≤ 4 * s.imem.capacity - 1

/-- The invariant of the machine: sizes inside the spec's bounds, canonical memories, a zero in the hard-wired
register's slot, and R135's range of the program counter. -/
def Inv (s : State) : Prop :=
  SizesInBounds s ∧ MemoriesCanonical s ∧ ZeroSlotHoldsZero s ∧ PcInRange s

/-- The state in which the execute action of a step from `s` begins, when the fetch check passes (R100): `ir` is the
fetched word and `pc` is `pc_inc`. -/
def afterAdvance (s : State) : State := { s with ir := fetchedWord s, pc := s.pc + 4 }

/-- The "reads" column of R25. -/
def sources : Instr → List RegIdx
  | .add rs rt _ _ | .and rs rt _ _ => [rs, rt]
  | .addi rs _ _ | .andi rs _ _ | .lw rs _ _ => [rs]
  | .sw rs rt _ | .beq rs rt _ => [rs, rt]
  | .jr rs _ _ _ => [rs]
  | .j _ | .syscall _ _ _ _ | .jal _ => []

/-- The "writes" column of R25. -/
def destination : Instr → Option RegIdx
  | .add _ _ rd _ | .and _ _ rd _ => some rd
  | .addi _ rt _ | .andi _ rt _ | .lw _ rt _ => some rt
  | .sw _ _ _ | .beq _ _ _ | .jr _ _ _ _ | .j _ | .syscall _ _ _ _ | .jal _ => none

/-- The integer sum an instruction forms with the checked addition (R111, R113, R122), where it forms one. -/
def checkedSum (s : State) : Instr → Option Int
  | .add rs rt _ _ => some ((readReg s rs).toInt + (readReg s rt).toInt)
  | .addi rs _ immediate | .lw rs _ immediate | .sw rs _ immediate =>
    some ((readReg s rs).toInt + immediate.toInt)
  | .and _ _ _ _ | .jr _ _ _ _ | .syscall _ _ _ _ | .j _ | .beq _ _ _ | .andi _ _ _ | .jal _ => none

/-- The data address an instruction computes (R122), where it computes one. -/
def dataAddress (s : State) : Instr → Option Int
  | .lw rs _ immediate | .sw rs _ immediate => some ((readReg s rs).toInt + immediate.toInt)
  | .add _ _ _ _ | .and _ _ _ _ | .jr _ _ _ _ | .syscall _ _ _ _ | .j _ | .beq _ _ _ | .addi _ _ _
  | .andi _ _ _ | .jal _ => none

/-- The three instructions that replace `pc` after the advance (R26). -/
def isTransfer : Instr → Bool
  | .beq _ _ _ | .j _ | .jr _ _ _ _ => true
  | .add _ _ _ _ | .and _ _ _ _ | .addi _ _ _ | .andi _ _ _ | .lw _ _ _ | .sw _ _ _ | .syscall _ _ _ _ | .jal _ => false

/-- The table of R156, its execute rows: may the instruction raise the kind? -/
def mayRaise : Instr → ErrorKind → Bool
  | .add _ _ rd _, k => k = .overflowError || (k = .invariantError && rd = 0)
  | .and _ _ rd _, k => k = .invariantError && rd = 0
  | .addi _ rt _, k => k = .overflowError || (k = .invariantError && rt = 0)
  | .andi _ rt _, k => k = .invariantError && rt = 0
  | .lw _ rt _, k => k = .overflowError || k = .boundsError || (k = .invariantError && rt = 0)
  | .sw _ _ _, k => k = .overflowError || k = .boundsError
  | .beq _ _ _, k => k = .boundsError
  | .j _, k => k = .boundsError
  | .jr _ _ _ _, k => k = .boundsError
  | .syscall _ _ _ _, _ => false
  | .jal _, _ => false

end Sys2Proof.Machine
end

