-- ==== Sys2Proof/Certificates/Slice0/Obligations.lean ====
section
/-! DEFINITION. The statements for the provers, in the order of the spec's files. In a statement about `exec`, `s` is
the state after fetch and advance, so `s.pc` is the spec's `pc_inc`. Each docstring names the rule it formalises. -/

open Sys2Proof Sys2Proof.Machine

/-! ### Encoding (30_encoding.md) -/

/-- R61: the position of each of the eight fields, as the arithmetic decode of the word's unsigned value and as a slice
in the source's numbering. -/
def Obligations.FieldsAreCutByPosition : Prop :=
  ∀ w : Word,
    ((opcodeOf w).toNat = w.toNat / 2 ^ 26 ∧ bvSlice (digitsOf w) 0 6 = .ok (digitsOf (opcodeOf w))) ∧
    ((rsOf w).toNat = w.toNat / 2 ^ 21 % 32 ∧ bvSlice (digitsOf w) 6 5 = .ok (digitsOf (rsOf w))) ∧
    ((rtOf w).toNat = w.toNat / 2 ^ 16 % 32 ∧ bvSlice (digitsOf w) 11 5 = .ok (digitsOf (rtOf w))) ∧
    ((rdOf w).toNat = w.toNat / 2 ^ 11 % 32 ∧ bvSlice (digitsOf w) 16 5 = .ok (digitsOf (rdOf w))) ∧
    ((shamtOf w).toNat = w.toNat / 2 ^ 6 % 32 ∧ bvSlice (digitsOf w) 21 5 = .ok (digitsOf (shamtOf w))) ∧
    ((functOf w).toNat = w.toNat % 64 ∧ bvSlice (digitsOf w) 26 6 = .ok (digitsOf (functOf w))) ∧
    ((immediateOf w).toNat = w.toNat % 2 ^ 16 ∧ bvSlice (digitsOf w) 16 16 = .ok (digitsOf (immediateOf w))) ∧
    ((addressOf w).toNat = w.toNat % 2 ^ 26 ∧ bvSlice (digitsOf w) 6 26 = .ok (digitsOf (addressOf w)))

/-- R66: a word is the instruction of a row exactly when it agrees with the row's match under the row's mask, for the
ten rows, with its fields cut from the word; and a word that no row matches has no effect when it executes. -/
def Obligations.MatchAndMaskSelectTheInstruction : Prop :=
  ∀ w : Word,
    (w &&& 0xFC00003F = 0x00000020 ↔ decode w = .ok (.add (rsOf w) (rtOf w) (rdOf w) (shamtOf w))) ∧
    (w &&& 0xFC00003F = 0x00000024 ↔ decode w = .ok (.and (rsOf w) (rtOf w) (rdOf w) (shamtOf w))) ∧
    (w &&& 0xFC00003F = 0x00000008 ↔ decode w = .ok (.jr (rsOf w) (rtOf w) (rdOf w) (shamtOf w))) ∧
    (w &&& 0xFC00003F = 0x0000000C ↔ decode w = .ok (.syscall (rsOf w) (rtOf w) (rdOf w) (shamtOf w))) ∧
    (w &&& 0xFC000000 = 0x08000000 ↔ decode w = .ok (.j (addressOf w))) ∧
    (w &&& 0xFC000000 = 0x10000000 ↔ decode w = .ok (.beq (rsOf w) (rtOf w) (immediateOf w))) ∧
    (w &&& 0xFC000000 = 0x20000000 ↔ decode w = .ok (.addi (rsOf w) (rtOf w) (immediateOf w))) ∧
    (w &&& 0xFC000000 = 0x30000000 ↔ decode w = .ok (.andi (rsOf w) (rtOf w) (immediateOf w))) ∧
    (w &&& 0xFC000000 = 0x8C000000 ↔ decode w = .ok (.lw (rsOf w) (rtOf w) (immediateOf w))) ∧
    (w &&& 0xFC000000 = 0xAC000000 ↔ decode w = .ok (.sw (rsOf w) (rtOf w) (immediateOf w))) ∧
    (w &&& 0xFC00003F ∉ [0x00000020#32, 0x00000024#32, 0x00000008#32, 0x0000000C#32] →
     w &&& 0xFC000000 ∉ [0x08000000#32, 0x10000000#32, 0x20000000#32, 0x30000000#32, 0x8C000000#32, 0xAC000000#32] →
     ∀ s : State, s.ir = w → dispatch s = .next s)

/-- Every instruction, with every operand at every value its field admits, decodes from its own encoding. -/
def Obligations.DecodeOfEncodeIsTheInstruction : Prop :=
  ∀ i : Instr, decode (encode i) = .ok i

/-- No bit of a word is dropped: a word that decodes is the encoding of what it decodes to. -/
def Obligations.EncodeOfDecodeIsTheWord : Prop :=
  ∀ (w : Word) (i : Instr), decode w = .ok i → encode i = w

/-- R67: a word with anything in the fields its instruction ignores is accepted, and has the meaning of the canonical
encoding with zeros there. -/
def Obligations.UnusedFieldsAreIgnored : Prop :=
  ∀ (rs rt rd shamt : RegIdx) (s : State),
    (∃ i j, decode (0#6 ++ rs ++ rt ++ rd ++ shamt ++ 32#6 : Word) = .ok i ∧
      decode (0#6 ++ rs ++ rt ++ rd ++ 0#5 ++ 32#6 : Word) = .ok j ∧ exec i s = exec j s) ∧
    (∃ i j, decode (0#6 ++ rs ++ rt ++ rd ++ shamt ++ 36#6 : Word) = .ok i ∧
      decode (0#6 ++ rs ++ rt ++ rd ++ 0#5 ++ 36#6 : Word) = .ok j ∧ exec i s = exec j s) ∧
    (∃ i j, decode (0#6 ++ rs ++ rt ++ rd ++ shamt ++ 8#6 : Word) = .ok i ∧
      decode (0#6 ++ rs ++ 0#15 ++ 8#6 : Word) = .ok j ∧ exec i s = exec j s) ∧
    (∃ i j, decode (0#6 ++ rs ++ rt ++ rd ++ shamt ++ 12#6 : Word) = .ok i ∧
      decode (0x0000000C : Word) = .ok j ∧ exec i s = exec j s)

/-- R73 and R74: every line of the assembly notation inside its operand bounds has the one word whose fields the table
of R73 gives; `nop` is the all-zero word, which no row matches. -/
def Obligations.AssemblyLinesSetTheirFields : Prop :=
  (∀ rd rs rt, (AsmLine.add rd rs rt).wellFormed = true → ∃ d s t : RegIdx,
    decode (assemble (.add rd rs rt)) = .ok (.add s t d 0) ∧ d.toNat = rd ∧ s.toNat = rs ∧ t.toNat = rt) ∧
  (∀ rd rs rt, (AsmLine.and rd rs rt).wellFormed = true → ∃ d s t : RegIdx,
    decode (assemble (.and rd rs rt)) = .ok (.and s t d 0) ∧ d.toNat = rd ∧ s.toNat = rs ∧ t.toNat = rt) ∧
  (∀ rs, (AsmLine.jr rs).wellFormed = true → ∃ s : RegIdx,
    decode (assemble (.jr rs)) = .ok (.jr s 0 0 0) ∧ s.toNat = rs) ∧
  assemble .syscall = 0x0000000C ∧
  (∀ rt rs imm, (AsmLine.addi rt rs imm).wellFormed = true → ∃ (t s : RegIdx) (i : BitVec 16),
    decode (assemble (.addi rt rs imm)) = .ok (.addi s t i) ∧ t.toNat = rt ∧ s.toNat = rs ∧ i.toInt = imm) ∧
  (∀ rt rs imm, (AsmLine.andi rt rs imm).wellFormed = true → ∃ (t s : RegIdx) (i : BitVec 16),
    decode (assemble (.andi rt rs imm)) = .ok (.andi s t i) ∧ t.toNat = rt ∧ s.toNat = rs ∧ (i.toNat : Int) = imm) ∧
  (∀ rt rs imm, (AsmLine.lw rt imm rs).wellFormed = true → ∃ (t s : RegIdx) (i : BitVec 16),
    decode (assemble (.lw rt imm rs)) = .ok (.lw s t i) ∧ t.toNat = rt ∧ s.toNat = rs ∧ i.toInt = imm) ∧
  (∀ rt rs imm, (AsmLine.sw rt imm rs).wellFormed = true → ∃ (t s : RegIdx) (i : BitVec 16),
    decode (assemble (.sw rt imm rs)) = .ok (.sw s t i) ∧ t.toNat = rt ∧ s.toNat = rs ∧ i.toInt = imm) ∧
  (∀ rs rt imm, (AsmLine.beq rs rt imm).wellFormed = true → ∃ (s t : RegIdx) (i : BitVec 16),
    decode (assemble (.beq rs rt imm)) = .ok (.beq s t i) ∧ s.toNat = rs ∧ t.toNat = rt ∧ i.toInt = imm) ∧
  (∀ imm, (AsmLine.j imm).wellFormed = true → ∃ a : BitVec 26,
    decode (assemble (.j imm)) = .ok (.j a) ∧ (a.toNat : Int) = imm) ∧
  (assemble .nop = 0x00000000 ∧ ∀ s : State, s.ir = 0 → dispatch s = .next s)

/-- Words the spec writes out (95_test_vectors.md T9 to T13, V-vectors) decode to the instructions it says they are. -/
def Obligations.SpecWordsDecode : Prop :=
  decode 0x014B4820 = .ok (.add 10 11 9 0) ∧ decode 0x00A64024 = .ok (.and 5 6 8 0) ∧
  decode 0x00E00008 = .ok (.jr 7 0 0 0) ∧ decode 0x03FFFFCC = .ok (.syscall 31 31 31 31) ∧
  decode 0x0BFFFFFF = .ok (.j 67108863) ∧ decode 0x1021000F = .ok (.beq 1 1 15) ∧
  decode 0x212CFFEC = .ok (.addi 9 12 0xFFEC) ∧ decode 0x31280064 = .ok (.andi 9 8 100) ∧
  decode 0x8C240000 = .ok (.lw 1 4 0) ∧ decode 0xAC850014 = .ok (.sw 4 5 20) ∧
  decode 0x0C000002 = .ok (.jal 2) ∧ decode 0x00000000 = .error (.funct 0) ∧
  decode 0xFC000000 = .error (.opcode 63)

/-! ### The word type (40_bitvector.md) -/

/-- R83 and R84: the two readings of a vector of `n >= 1` digits are the unsigned and the two's-complement value of the
bit vector with those digits, and an unset vector fails with StateError. -/
def Obligations.DigitReadingsAreTheBitVectorReadings : Prop :=
  (∀ (n : Nat) (x : BitVec n), 1 ≤ n →
    bvToUnsigned (digitsOf x) = .ok x.toNat ∧ bvToSigned (digitsOf x) = .ok x.toInt) ∧
  bvToUnsigned [] = .error .stateError ∧ bvToSigned [] = .error .stateError

/-- R85 and R86: `invert` flips every digit (for a word, `u(invert(w)) = 2^32 - 1 - u(w)`) and is its own inverse;
`incrementOne` adds one modulo `2^n`, wraps from all ones to all zeros, and does nothing to an unset vector. -/
def Obligations.InvertAndIncrementActOnTheValue : Prop :=
  (∀ (n : Nat) (x : BitVec n), 1 ≤ n → bvInvert (digitsOf x) = .ok (digitsOf (~~~x))) ∧
  (∀ w : Word, ∃ v : Word, bvInvert (digitsOf w) = .ok (digitsOf v) ∧ v.toNat = 2 ^ 32 - 1 - w.toNat) ∧
  (∀ v : Digits, v ≠ [] → (bvInvert v).bind bvInvert = .ok v) ∧
  bvInvert [] = .error .stateError ∧
  (∀ (n : Nat) (x : BitVec n), bvIncrementOne (digitsOf x) = digitsOf (x + 1)) ∧
  (∀ n : Nat, bvIncrementOne (List.replicate n true) = List.replicate n false)

/-- R81 and R82: the two encodings give the word whose reading is the number, for every number in range, and RangeError
outside the range. -/
def Obligations.IntegerEncodingsAreExact : Prop :=
  (∀ n : Int, 0 ≤ n → n ≤ 2 ^ 32 - 1 → ∃ w : Word, bvFromUnsigned n = .ok (digitsOf w) ∧ (w.toNat : Int) = n) ∧
  (∀ n : Int, n < 0 ∨ n > 2 ^ 32 - 1 → bvFromUnsigned n = .error .rangeError) ∧
  (∀ n : Int, FitsSigned n → ∃ w : Word, bvFromSigned n = .ok (digitsOf w) ∧ w.toInt = n) ∧
  (∀ n : Int, ¬ FitsSigned n → bvFromSigned n = .error .rangeError)

/-- R87: invert then increment negates a word, except that the most negative word is its own negation. -/
def Obligations.InvertThenIncrementNegates : Prop :=
  ∀ w : Word, ∃ v : Word, (bvInvert (digitsOf w)).map bvIncrementOne = .ok (digitsOf v) ∧
    (w ≠ 0x80000000 → v.toInt = -w.toInt) ∧ (w = 0x80000000 → v = w) ∧ (w = 0 → v = 0)

/-- R88 and R89: a slice is the named range of bits and fails with RangeError outside the vector; a concatenation puts
`self` in the more significant positions and fails with RangeError beyond 32 digits; slices of it give its parts back. -/
def Obligations.SliceAndConcatMoveDigits : Prop :=
  (∀ (n : Nat) (x : BitVec n) (a l : Nat), a + l ≤ n →
    bvSlice (digitsOf x) a l = .ok (digitsOf (x.extractLsb' (n - a - l) l))) ∧
  (∀ (v : Digits) (a l : Int), a < 0 ∨ l < 0 ∨ a + l > v.length → bvSlice v a l = .error .rangeError) ∧
  (∀ (n m : Nat) (x : BitVec n) (y : BitVec m), n + m ≤ 32 →
    bvConcat (digitsOf x) (digitsOf y) = .ok (digitsOf (x ++ y))) ∧
  (∀ a b : Digits, a.length + b.length > 32 → bvConcat a b = .error .rangeError) ∧
  (∀ a b c : Digits, bvConcat a b = .ok c →
    bvSlice c 0 a.length = .ok a ∧ bvSlice c a.length b.length = .ok b)

/-- R92: the laws of the type the source lists as testable properties. -/
def Obligations.WordTypeRoundTrips : Prop :=
  (∀ n : Int, FitsSigned n → (bvFromSigned n).bind bvToSigned = .ok n) ∧
  (∀ n : Int, 0 ≤ n → n ≤ 2 ^ 32 - 1 → (bvFromUnsigned n).bind bvToUnsigned = .ok n.toNat) ∧
  (∀ v : Digits, v ≠ [] → (bvInvert v).bind bvInvert = .ok v) ∧
  (∀ n : Nat, bvIncrementOne (List.replicate n true) = List.replicate n false) ∧
  (∀ a b c : Digits, bvConcat a b = .ok c →
    bvSlice c 0 a.length = .ok a ∧ bvSlice c a.length b.length = .ok b)

/-! ### Registers and shared operations (10_state.md, 42, 43, 44) -/

/-- R23: register 0 reads zero always, a write to it fails for any value, and no instruction whose destination is
register 0 completes. -/
def Obligations.RegisterZeroIsHardwired : Prop :=
  (∀ s : State, readReg s 0 = 0) ∧
  (∀ (s : State) (v : Word), writeReg 0 v s = .error .invariantError) ∧
  (∀ (i : Instr) (s t : State), destination i = some 0 → exec i s ≠ .next t)

/-- R24: the register write faults for index 0 whatever the value, and otherwise replaces the whole word of that
register and nothing else; every word passes the range validation. -/
def Obligations.RegisterWriteReplacesOneRegister : Prop :=
  ∀ (i : RegIdx) (v : Word) (s : State), FitsSigned v.toInt ∧
    (i = 0 → writeReg i v s = .error .invariantError) ∧
    (i ≠ 0 → ∃ t, writeReg i v s = .ok t ∧ readReg t i = v ∧ OnlyRegChanges i s t)

/-- R25: an instruction reads only the registers of its row, before it writes any: two states that agree on those
registers, on `pc`, on data memory and on the size of instruction memory give outcomes that agree on everything the
instruction writes, whatever the other registers, `ir` and the words of instruction memory hold; and it writes no
register but its destination. -/
def Obligations.InstructionsReadOnlyTheirSources : Prop :=
  (∀ (i : Instr) (s t s' : State), (∀ r ∈ sources i, readReg t r = readReg s r) →
    t.pc = s.pc → t.imem.capacity = s.imem.capacity → t.dmem = s.dmem → t.run = s.run → exec i s = .next s' →
    ∃ t', exec i t = .next t' ∧ t'.pc = s'.pc ∧ t'.imem = t.imem ∧ t'.dmem = s'.dmem ∧ t'.run = s'.run ∧
      (∀ d, destination i = some d → readReg t' d = readReg s' d)) ∧
  (∀ (i : Instr) (s s' : State), exec i s = .next s' →
    ∀ r, destination i ≠ some r → readReg s' r = readReg s r)

/-- R110: the checked addition returns the exact integer sum when it is a 32-bit signed value and raises OverflowError
exactly when it is not, which is when both addends share a sign and the wrapped sum's sign differs. -/
def Obligations.CheckedAddIsExact : Prop :=
  ∀ a b : Word,
    (FitsSigned (a.toInt + b.toInt) → ∃ r, checkedAdd a b = .ok r ∧ r.toInt = a.toInt + b.toInt) ∧
    (¬ FitsSigned (a.toInt + b.toInt) → checkedAdd a b = .error .overflowError) ∧
    (a.msb = b.msb ∧ (BitVec.ofInt 32 (a.toInt + b.toInt)).msb ≠ a.msb ↔ ¬ FitsSigned (a.toInt + b.toInt))

/-- R122: the effective address is the exact sum of the base and the sign-extended displacement, used as the slot index
itself; OverflowError comes before BoundsError. -/
def Obligations.EffectiveAddressIsCheckedThenBounded : Prop :=
  ∀ (s : State) (rs : RegIdx) (immediate : BitVec 16),
    let e := (readReg s rs).toInt + immediate.toInt
    (¬ FitsSigned e → effectiveAddress s rs immediate = .error .overflowError) ∧
    (FitsSigned e → ¬ (0 ≤ e ∧ e < s.dmem.capacity) → effectiveAddress s rs immediate = .error .boundsError) ∧
    (FitsSigned e → (0 ≤ e ∧ e < s.dmem.capacity) →
      ∃ ea : Nat, effectiveAddress s rs immediate = .ok ea ∧ (ea : Int) = e)

/-- R133: a target is accepted exactly when it selects an existing slot of instruction memory; then the transfer writes
it into `pc`, and otherwise it raises BoundsError. -/
def Obligations.TargetCheckAcceptsExistingSlots : Prop :=
  ∀ (s : State) (t : Int),
    (TargetInImem s t → checkTarget s t = .ok () ∧
      ∃ u, transferTo t s = .ok u ∧ u.pc = BitVec.ofInt 32 t ∧ OnlyPcChanges s u) ∧
    (¬ TargetInImem s t → checkTarget s t = .error .boundsError ∧ transferTo t s = .error .boundsError)

/-! ### The instructions (42 to 45) -/

/-- R111, ADD: its encodings; the exact sum in `x[rd]` and nothing else changed; OverflowError first, then
InvariantError for `rd = 0`, with no register changed. -/
def Obligations.AddStoresTheExactSum : Prop :=
  ∀ (rs rt rd shamt : RegIdx) (s : State),
    let sum := (readReg s rs).toInt + (readReg s rt).toInt
    decode (0#6 ++ rs ++ rt ++ rd ++ shamt ++ 32#6 : Word) = .ok (.add rs rt rd shamt) ∧
    (FitsSigned sum → rd ≠ 0 → ∃ t, exec (.add rs rt rd shamt) s = .next t ∧
      (readReg t rd).toInt = sum ∧ OnlyRegChanges rd s t) ∧
    (¬ FitsSigned sum → exec (.add rs rt rd shamt) s = .fault (.overflowError s)) ∧
    (FitsSigned sum → rd = 0 → exec (.add rs rt rd shamt) s = .fault (.invariantError s))

/-- R112, AND: bit `b` of the result is 1 exactly when bit `b` of both sources is 1; InvariantError for `rd = 0` and no
other fault. -/
def Obligations.AndStoresTheBitwiseAnd : Prop :=
  ∀ (rs rt rd shamt : RegIdx) (s : State),
    decode (0#6 ++ rs ++ rt ++ rd ++ shamt ++ 36#6 : Word) = .ok (.and rs rt rd shamt) ∧
    (rd ≠ 0 → ∃ t, exec (.and rs rt rd shamt) s = .next t ∧
      (∀ b, (readReg t rd).getLsbD b = ((readReg s rs).getLsbD b && (readReg s rt).getLsbD b)) ∧
      OnlyRegChanges rd s t) ∧
    (rd = 0 → exec (.and rs rt rd shamt) s = .fault (.invariantError s))

/-- R113, ADDI: the exact sum of `x[rs]` and the sign-extended immediate in `x[rt]`; OverflowError, then
InvariantError for `rt = 0`. -/
def Obligations.AddiStoresTheExactSum : Prop :=
  ∀ (rs rt : RegIdx) (immediate : BitVec 16) (s : State),
    let sum := (readReg s rs).toInt + immediate.toInt
    decode (8#6 ++ rs ++ rt ++ immediate : Word) = .ok (.addi rs rt immediate) ∧
    (FitsSigned sum → rt ≠ 0 → ∃ t, exec (.addi rs rt immediate) s = .next t ∧
      (readReg t rt).toInt = sum ∧ OnlyRegChanges rt s t) ∧
    (¬ FitsSigned sum → exec (.addi rs rt immediate) s = .fault (.overflowError s)) ∧
    (FitsSigned sum → rt = 0 → exec (.addi rs rt immediate) s = .fault (.invariantError s))

/-- R114, ANDI: the low 16 bits of `x[rs]` masked by the immediate, the high 16 bits zero; InvariantError for `rt = 0`
and no other fault. -/
def Obligations.AndiMasksTheLowHalf : Prop :=
  ∀ (rs rt : RegIdx) (immediate : BitVec 16) (s : State),
    decode (12#6 ++ rs ++ rt ++ immediate : Word) = .ok (.andi rs rt immediate) ∧
    (rt ≠ 0 → ∃ t, exec (.andi rs rt immediate) s = .next t ∧
      (readReg t rt).toNat = (readReg s rs).toNat &&& immediate.toNat ∧ (readReg t rt).toNat ≤ 65535 ∧
      OnlyRegChanges rt s t) ∧
    (rt = 0 → exec (.andi rs rt immediate) s = .fault (.invariantError s))

/-- R120, LW: the whole word of the addressed slot in `x[rt]`; OverflowError, then BoundsError, then InvariantError for
`rt = 0`. -/
def Obligations.LwLoadsTheAddressedSlot : Prop :=
  ∀ (rs rt : RegIdx) (immediate : BitVec 16) (s : State),
    let e := (readReg s rs).toInt + immediate.toInt
    decode (35#6 ++ rs ++ rt ++ immediate : Word) = .ok (.lw rs rt immediate) ∧
    (FitsSigned e → (0 ≤ e ∧ e < s.dmem.capacity) → rt ≠ 0 → ∃ t, exec (.lw rs rt immediate) s = .next t ∧
      readReg t rt = s.dmem.read e.toNat ∧ OnlyRegChanges rt s t) ∧
    (¬ FitsSigned e → exec (.lw rs rt immediate) s = .fault (.overflowError s)) ∧
    (FitsSigned e → ¬ (0 ≤ e ∧ e < s.dmem.capacity) → exec (.lw rs rt immediate) s = .fault (.boundsError s)) ∧
    (FitsSigned e → (0 ≤ e ∧ e < s.dmem.capacity) → rt = 0 →
      exec (.lw rs rt immediate) s = .fault (.invariantError s))

/-- R121, SW: the addressed slot holds `x[rt]`, for every `rt`, and every other slot and every register is as before;
OverflowError, then BoundsError. The address is the one `effectiveAddress` gives. -/
def Obligations.SwStoresIntoTheAddressedSlot : Prop :=
  ∀ (rs rt : RegIdx) (immediate : BitVec 16) (s : State),
    let e := (readReg s rs).toInt + immediate.toInt
    decode (43#6 ++ rs ++ rt ++ immediate : Word) = .ok (.sw rs rt immediate) ∧
    (FitsSigned e → (0 ≤ e ∧ e < s.dmem.capacity) → effectiveAddress s rs immediate = .ok e.toNat) ∧
    (∀ ea, effectiveAddress s rs immediate = .ok ea → ∃ t, exec (.sw rs rt immediate) s = .next t ∧
      t.dmem.read ea = readReg s rt ∧ OnlySlotChanges ea s t) ∧
    (¬ FitsSigned e → exec (.sw rs rt immediate) s = .fault (.overflowError s)) ∧
    (FitsSigned e → ¬ (0 ≤ e ∧ e < s.dmem.capacity) → exec (.sw rs rt immediate) s = .fault (.boundsError s))

/-- R130, BEQ: taken exactly when the 32-bit patterns agree, to `pc_inc` plus four times the sign-extended immediate;
BoundsError only when taken. -/
def Obligations.BeqBranchesWhenEqual : Prop :=
  ∀ (rs rt : RegIdx) (immediate : BitVec 16) (s : State),
    let target := s.pc.toInt + immediate.toInt * 4
    decode (4#6 ++ rs ++ rt ++ immediate : Word) = .ok (.beq rs rt immediate) ∧
    ((readReg s rs).toInt ≠ (readReg s rt).toInt → exec (.beq rs rt immediate) s = .next s) ∧
    ((readReg s rs).toInt = (readReg s rt).toInt → TargetInImem s target →
      ∃ t, exec (.beq rs rt immediate) s = .next t ∧ t.pc = BitVec.ofInt 32 target ∧ OnlyPcChanges s t) ∧
    ((readReg s rs).toInt = (readReg s rt).toInt → ¬ TargetInImem s target →
      exec (.beq rs rt immediate) s = .fault (.boundsError s))

/-- R131, J: the target is `u(pc_inc[31:28]) * 2^28 + address * 4`, its two low bits zero; BoundsError when the target,
read as a signed value, is outside instruction memory. -/
def Obligations.JumpReplacesTheLow28Bits : Prop :=
  ∀ (address : BitVec 26) (s : State),
    let target := s.pc.toNat / 2 ^ 28 * 2 ^ 28 + address.toNat * 4
    decode (2#6 ++ address : Word) = .ok (.j address) ∧
    (target < 2 ^ 31 → target < 4 * s.imem.capacity →
      ∃ t, exec (.j address) s = .next t ∧ t.pc.toNat = target ∧ OnlyPcChanges s t) ∧
    (¬ (target < 2 ^ 31 ∧ target < 4 * s.imem.capacity) → exec (.j address) s = .fault (.boundsError s))

/-- R132, JR: `pc` takes all 32 bits of `x[rs]`, its two low bits as well; BoundsError when the signed value is outside
instruction memory; no other fault. -/
def Obligations.JrCopiesTheRegister : Prop :=
  ∀ (rs rt rd shamt : RegIdx) (s : State),
    decode (0#6 ++ rs ++ rt ++ rd ++ shamt ++ 8#6 : Word) = .ok (.jr rs rt rd shamt) ∧
    (TargetInImem s (readReg s rs).toInt →
      ∃ t, exec (.jr rs rt rd shamt) s = .next t ∧ t.pc = readReg s rs ∧ OnlyPcChanges s t) ∧
    (¬ TargetInImem s (readReg s rs).toInt → exec (.jr rs rt rd shamt) s = .fault (.boundsError s))

/-- R140, SYSCALL: every word with opcode 0 and funct 12 halts: the run state becomes HALTED and nothing else changes;
a step that runs it leaves `ir` the word and `pc` its address plus 4, and no step follows. -/
def Obligations.SyscallHalts : Prop :=
  (∀ (rs rt rd shamt : RegIdx) (s : State),
    decode (0#6 ++ rs ++ rt ++ rd ++ shamt ++ 12#6 : Word) = .ok (.syscall rs rt rd shamt) ∧
    ∃ t, exec (.syscall rs rt rd shamt) s = .next t ∧ t.run = some .halted ∧ OnlyRunStateChanges s t) ∧
  (∀ s : State, s.run = some .running → FetchInRange s →
    opcodeOf (fetchedWord s) = 0 → functOf (fetchedWord s) = 12 →
    ∃ t, step s = .next t ∧ t.run = some .halted ∧ t.ir = fetchedWord s ∧ t.pc = s.pc + 4 ∧ SameRegs s t ∧
      SameSlots s.imem t.imem ∧ SameSlots s.dmem t.dmem ∧
      (∀ u, step t ≠ .next u) ∧ (∀ f, step t ≠ .fault f))

/-- R142: a word whose opcode is not one of the seven, or whose opcode is 0 and funct not one of the four, executes as
a no-op: the step writes the word to `ir`, adds 4 to `pc` and changes nothing else, and it cannot fault. -/
def Obligations.UnrecognisedWordIsNoOp : Prop :=
  ∀ s : State, s.run = some .running → FetchInRange s →
    (opcodeOf (fetchedWord s) ∉ [0#6, 2#6, 4#6, 8#6, 12#6, 35#6, 43#6] ∨
      (opcodeOf (fetchedWord s) = 0 ∧ functOf (fetchedWord s) ∉ [8#6, 12#6, 32#6, 36#6])) →
    step s = .next { s with ir := fetchedWord s, pc := s.pc + 4 }

/-- R143: jump-and-link neither jumps nor links: every word of opcode 3 is the table's JAL, which changes nothing, so
its step is the no-op step; and JALR's word (opcode 0, funct 9) is a no-op too. -/
def Obligations.JumpAndLinkIsNoOp : Prop :=
  (∀ (address : BitVec 26) (s : State), decode (3#6 ++ address : Word) = .ok (.jal address) ∧
    ∃ t, exec (.jal address) s = .next t ∧ t = s) ∧
  (∀ s : State, s.run = some .running → FetchInRange s →
    (opcodeOf (fetchedWord s) = 3 ∨ (opcodeOf (fetchedWord s) = 0 ∧ functOf (fetchedWord s) = 9)) →
    ∃ t, step s = .next t ∧ t.pc = s.pc + 4 ∧ t.ir = fetchedWord s ∧ t.run = some .running ∧ SameRegs s t ∧
      SameSlots s.imem t.imem ∧ SameSlots s.dmem t.dmem)

/-! ### The step (41_cycle.md, 20_memory.md, 60_exceptions.md) -/

/-- When the fetch check passes and the fetched word decodes to an instruction, a step of a RUNNING core is that
instruction's action on the state after the fetch into `ir` and the advance of `pc`, and nothing more. -/
def Obligations.StepRunsTheDecodedInstruction : Prop :=
  ∀ (s : State) (i : Instr), s.run = some .running → FetchInRange s → decode (fetchedWord s) = .ok i →
    step s = exec i { s with ir := fetchedWord s, pc := s.pc + 4 }

/-- R101: the fetch reads slot `trunc(s(pc) / 4)` into `ir`; outside instruction memory the step ends with BoundsError
and changes nothing; and only sequential execution leads there, since a step that puts anything but `pc + 4` into `pc`
leaves a `pc` that passes the next fetch check. -/
def Obligations.FetchChecksTheProgramCounter : Prop :=
  ∀ s : State, s.run = some .running →
    ((s.pc.toInt < 0 ∨ s.pc.toInt.tdiv 4 ≥ s.imem.capacity) → step s = .fault (.boundsError s)) ∧
    (0 ≤ s.pc.toInt → s.pc.toInt.tdiv 4 < s.imem.capacity →
      (∀ t, step s = .next t → t.ir = s.imem.read (s.pc.toInt.tdiv 4).toNat) ∧
      (∀ f, step s = .fault f → f.left.ir = s.imem.read (s.pc.toInt.tdiv 4).toNat) ∧
      (∀ t, SizesInBounds s → step s = .next t → t.pc ≠ s.pc + 4 → FetchInRange t))

/-- R102: in every step that passes the fetch check `pc` is advanced by 4 before the execute action: it holds
`pc + 4` after every word but a taken transfer, and at every fault of the execute action; inside the size bounds the
sum never leaves the signed range. -/
def Obligations.AdvanceHappensInEveryStep : Prop :=
  ∀ s : State, s.run = some .running → FetchInRange s →
    (∀ t, step s = .next t → (∀ i, decode (fetchedWord s) = .ok i → isTransfer i = false) → t.pc = s.pc + 4) ∧
    (∀ f, step s = .fault f → f.left.pc = s.pc + 4) ∧
    (SizesInBounds s → (s.pc + 4).toInt = s.pc.toInt + 4)

/-- R46: the slot fetched is the one of `pc` with its two low bits dropped; the fetch never faults for them; and a step
that does not transfer control keeps them in `pc`. -/
def Obligations.FetchTruncatesMisalignedPc : Prop :=
  ∀ s : State, s.run = some .running → 0 ≤ s.pc.toInt →
    (∀ s' : State, s'.pc = s.pc &&& 0xFFFFFFFC → s'.imem = s.imem →
      (FetchInRange s' ↔ FetchInRange s) ∧ fetchedWord s' = fetchedWord s) ∧
    fetchedWord s = s.imem.read (s.pc.toNat / 4) ∧
    (∀ t, step s = .next t → (∀ i, decode (fetchedWord s) = .ok i → isTransfer i = false) →
      t.pc.extractLsb' 0 2 = s.pc.extractLsb' 0 2)

/-- R12: a step in run state RUNNING has exactly one of the outcomes Next (still RUNNING), Halted (run state HALTED, and
no step after it) and Fault, with a fault of one of three kinds and the state R158 gives; and in no other run state does
the core take a step. -/
def Obligations.StepIsTotalWhileRunning : Prop :=
  ∀ s : State,
    (s.run = some .running →
      (∃ t, step s = .next t ∧ t.run = some .running) ∨
      (∃ t, step s = .next t ∧ t.run = some .halted ∧ (∀ u, step t ≠ .next u) ∧ (∀ f, step t ≠ .fault f)) ∨
      (∃ f, step s = .fault f ∧ f.kind ∈ [ErrorKind.overflowError, .boundsError, .invariantError] ∧
        (f.left = s ∨ f.left = { s with ir := fetchedWord s, pc := s.pc + 4 }))) ∧
    (s.run ≠ some .running → (∀ t, step s ≠ .next t) ∧ (∀ f, step s ≠ .fault f))

/-- R30: Run makes the core RUNNING, so a run begins RUNNING; the run state goes to HALTED only by the word with opcode 0 and funct 12, which always
does it; the core steps only in RUNNING, so nothing takes it back; and a fault does not change the run state. -/
def Obligations.OnlyTheHaltWordHalts : Prop :=
  (∀ s t : State, hostRun s = some t → t.run = some .running) ∧
  (∀ s : State, IsLaunch s → s.run = some .running) ∧
  (∀ s t : State, step s = .next t →
    s.run = some .running ∧ (t.run = some .halted ↔ opcodeOf (fetchedWord s) = 0 ∧ functOf (fetchedWord s) = 12)) ∧
  (∀ (s : State) (f : Fault), step s = .fault f → s.run = some .running ∧ f.left.run = some .running)

/-- The execute rows of R156's table: an instruction raises no kind its row does not list, and InvariantError only with
destination 0. -/
def Obligations.InstructionsRaiseOnlyTheirFaults : Prop :=
  ∀ (i : Instr) (s : State) (f : Fault), exec i s = .fault f → mayRaise i f.kind = true

/-- R157: the fetch's BoundsError first, whatever the word; then, within the instruction, OverflowError of the checked
sum, then BoundsError of the data address, then InvariantError of the register write. -/
def Obligations.FaultPriorityOrder : Prop :=
  (∀ s : State, s.run = some .running → ¬ FetchInRange s → step s = .fault (.boundsError s)) ∧
  (∀ (i : Instr) (s : State),
    (∀ n, checkedSum s i = some n → ¬ FitsSigned n → exec i s = .fault (.overflowError s)) ∧
    (∀ a, dataAddress s i = some a → FitsSigned a → ¬ (0 ≤ a ∧ a < s.dmem.capacity) →
      exec i s = .fault (.boundsError s)) ∧
    (destination i = some 0 → (∀ n, checkedSum s i = some n → FitsSigned n) →
      (∀ a, dataAddress s i = some a → 0 ≤ a ∧ a < s.dmem.capacity) → exec i s = .fault (.invariantError s)))

/-- R158: a fault of the fetch leaves the whole state as it was; a fault of the execute action leaves `ir` the faulting
word and `pc` its address plus 4 and everything else as before the step; and the effects of all earlier steps stand. -/
def Obligations.FaultsArePrecise : Prop :=
  (∀ (s : State) (f : Fault), step s = .fault f →
    (¬ FetchInRange s ∧ f.left = s) ∨ (FetchInRange s ∧ f.left = { s with ir := fetchedWord s, pc := s.pc + 4 })) ∧
  (∀ (n : Nat) (s u : State) (f : Fault), runFor n s = .unfinished u → step u = .fault f →
    runFor (n + 1) s = .faulted f)

/-- R53: a running program cannot modify instruction memory: the words the fetch returns during a run are those it held
at launch, however the run stands. -/
def Obligations.RunsNeverWriteInstructionMemory : Prop :=
  ∀ (n : Nat) (s : State),
    (∀ t, runFor n s = .unfinished t → t.imem = s.imem) ∧
    (∀ t, runFor n s = .halted t → t.imem = s.imem) ∧
    (∀ f, runFor n s = .faulted f → f.left.imem = s.imem)

/-- Data memory's only writer during a run is SW (R42): a step of any other word leaves every slot as it was. -/
def Obligations.OnlySwWritesDataMemory : Prop :=
  ∀ s t : State, step s = .next t →
    (∀ rs rt immediate, decode (fetchedWord s) ≠ .ok (.sw rs rt immediate)) → t.dmem = s.dmem

/-- R50: a load returns the value of the most recent store to the same slot. A store, then any steps that do not store
to that slot (here: a state that reads the same there), then a load of it. -/
def Obligations.LoadReturnsTheLastStore : Prop :=
  ∀ (rs rt rs' rt' : RegIdx) (imm imm' : BitVec 16) (s t u : State) (ea : Nat),
    effectiveAddress s rs imm = .ok ea → exec (.sw rs rt imm) s = .next t →
    u.dmem.read ea = t.dmem.read ea → effectiveAddress u rs' imm' = .ok ea → rt' ≠ 0 →
    ∃ v, exec (.lw rs' rt' imm') u = .next v ∧ readReg v rt' = readReg s rt

/-! ### Invariants -/

/-- The machine's invariant is kept by every step, from every state that has it. -/
def Obligations.StepKeepsTheInvariant : Prop :=
  ∀ s t : State, Inv s → step s = .next t → Inv t

/-- The machine's invariant holds after reset, at every pair of sizes inside the spec's bounds; State.reset is that state
at Config's sizes, which are the model's choice (notes/assumptions/1.md), so it holds there. -/
def Obligations.ResetHasTheInvariant : Prop :=
  (∀ m n : Nat, 1 ≤ m → m ≤ Config.imemSizeMax → 1 ≤ n → n ≤ Config.dmemSizeMax → Inv (State.resetWith m n)) ∧
  State.reset = State.resetWith Config.imemSize Config.dmemSize ∧ Inv State.reset

/-- R135: at the start of every step of a run `0 <= s(pc) <= 4 * IMEM_SIZE + 3`; bit 31 of `pc_inc` is 0, so the four
bits J takes are between 0 and 7; and while every JR target used is a multiple of 4, `pc` is one and the bound is
`4 * IMEM_SIZE`. -/
def Obligations.ProgramCounterStaysInRange : Prop :=
  (∀ s : State, Reachable s → PcInRange s ∧
    (PcAligned s → s.pc.toInt ≤ 4 * s.imem.capacity) ∧
    (FetchInRange s → (s.pc + 4).msb = false ∧ (s.pc + 4).toNat / 2 ^ 28 ≤ 7)) ∧
  (∀ s : State, IsLaunch s → PcAligned s) ∧
  (∀ s t : State, PcAligned s → step s = .next t →
    (∀ rs rt rd shamt, decode (fetchedWord s) = .ok (.jr rs rt rd shamt) → 4 ∣ (readReg s rs).toInt) →
    PcAligned t)

/-- No step changes the size of a memory: the two sizes are parameters, not state (R6, R7, R20). -/
def Obligations.StepsKeepTheSizes : Prop :=
  ∀ s t : State, step s = .next t → t.imem.capacity = s.imem.capacity ∧ t.dmem.capacity = s.dmem.capacity

/-! ### Reset, host and run (10_state.md, 70_reset_and_hazards.md, 41_cycle.md) -/

/-- R170: after construction, at every pair of sizes, `pc`, `ir`, every register and every slot of both memories are zero,
and the core is not RUNNING: it takes no step until Run is invoked, which makes it RUNNING and leaves all the zeros. -/
def Obligations.ResetLeavesEverySlotZero : Prop :=
  ∀ m n : Nat, (State.resetWith m n).pc = 0 ∧ (State.resetWith m n).ir = 0 ∧
    (∀ r, readReg (State.resetWith m n) r = 0) ∧
    (∀ k, (State.resetWith m n).imem.read k = 0) ∧ (∀ a, (State.resetWith m n).dmem.read a = 0) ∧
    (State.resetWith m n).imem.capacity = m ∧ (State.resetWith m n).dmem.capacity = n ∧
    (State.resetWith m n).run ≠ some .running ∧
    (∀ t, step (State.resetWith m n) ≠ .next t) ∧ (∀ f, step (State.resetWith m n) ≠ .fault f) ∧
    ∃ t, hostRun (State.resetWith m n) = some t ∧ t.run = some .running ∧ t.pc = 0 ∧
      OnlyRunStateChanges (State.resetWith m n) t

/-- R31: Load places a 32-digit word at a word index and changes no other slot, register or item; RangeError for an
index outside `[0, IMEM_SIZE)` or another length. It is a move the host has exactly while the core is not running. -/
def Obligations.LoadPlacesOneWord : Prop :=
  ∀ (k : Int) (w : Digits) (s : State),
    ((k < 0 ∨ k ≥ s.imem.capacity) → hostLoad k w s = .error .rangeError) ∧
    (w.length ≠ 32 → hostLoad k w s = .error .rangeError) ∧
    (0 ≤ k → k < s.imem.capacity → w.length = 32 → ∃ t, hostLoad k w s = .ok t ∧
      digitsOf (t.imem.read k.toNat) = w ∧ (∀ j, j ≠ k.toNat → t.imem.read j = s.imem.read j) ∧
      t.imem.capacity = s.imem.capacity ∧ SameRegs s t ∧ SameSlots s.dmem t.dmem ∧
      t.pc = s.pc ∧ t.ir = s.ir ∧ t.run = s.run ∧ (s.run ≠ some .running → HostMove s t)) ∧
    (s.run = some .running → ∀ t, ¬ HostMove s t)

/-- R33: the presets set one register 1 to 31 or one data-memory slot to any word; index 0 is refused with
InvariantError, a number out of the signed range with RangeError, a slot outside the array with BoundsError. While the core is running there is no preset. -/
def Obligations.PresetsSetOneRegisterOrSlot : Prop :=
  (∀ (i : RegIdx) (n : Int) (s : State),
    (i = 0 → hostPresetReg i n s = .error .invariantError) ∧
    (i ≠ 0 → ¬ FitsSigned n → hostPresetReg i n s = .error .rangeError) ∧
    (i ≠ 0 → FitsSigned n → ∃ t, hostPresetReg i n s = .ok t ∧ (readReg t i).toInt = n ∧ OnlyRegChanges i s t)) ∧
  (∀ s : State, s.run = some .running → ∀ t, ¬ HostMove s t) ∧
  (∀ (a : Int) (v : Word) (s : State),
    (¬ (0 ≤ a ∧ a < s.dmem.capacity) → hostPresetSlot a v s = .error .boundsError) ∧
    (0 ≤ a → a < s.dmem.capacity → ∃ t, hostPresetSlot a v s = .ok t ∧ t.dmem.read a.toNat = v ∧
      OnlySlotChanges a.toNat s t))

/-- Reset at sizes inside the bounds is a fresh Machine; Load and the presets lead from fresh to fresh; Run leads from
fresh to a launch state, and from there the host has neither another Run nor a Load or preset (R11, R34, R173). -/
def Obligations.HostMovesGiveLaunchStates : Prop :=
  (∀ m n : Nat, 1 ≤ m → m ≤ Config.imemSizeMax → 1 ≤ n → n ≤ Config.dmemSizeMax →
    IsFresh (State.resetWith m n)) ∧
  (∀ s t : State, IsFresh s → HostMove s t → IsFresh t) ∧
  (∀ s : State, IsFresh s → ∃ t, hostRun s = some t ∧ IsLaunch t ∧ OnlyRunStateChanges s t) ∧
  (∀ s : State, IsLaunch s → hostRun s = none ∧ ∀ t, ¬ HostMove s t)

/-- R171: a run starts at byte address 0: Run leaves `pc` zero, the first step of the run fetches slot 0 of instruction
memory, and that fetch passes its check. -/
def Obligations.RunsStartAtSlotZero : Prop :=
  (∀ s t : State, hostRun s = some t → t.pc = 0) ∧
  (∀ s : State, IsLaunch s → s.pc = 0 ∧ FetchInRange s ∧ fetchedWord s = s.imem.read 0 ∧
    (∀ t, step s = .next t → t.ir = s.imem.read 0))

/-- The third fate of a run, which R105 allows: each of its three one-word loops runs for ever. -/
def Obligations.OneWordLoopsNeverEnd : Prop :=
  (∀ s : State, IsLaunch s → fetchedWord s = 0x00000008 ∨ fetchedWord s = 0x08000000 →
    ∀ n, ∃ u, runFor n s = .unfinished u) ∧
  (∀ s : State, s.run = some .running → SizesInBounds s → FetchInRange s → fetchedWord s = 0x1000FFFF →
    ∀ n, ∃ u, runFor n s = .unfinished u)

/-- R106: a run ends with outcome Halted when a step executes a word with opcode 0 and funct 12, in a state with run
state HALTED, `ir` that word, `pc` its address plus 4, and registers and data memory as the previous step left them; it
ends with Fault(E) when a step raises E; and a run that has ended takes no further step. -/
def Obligations.RunsEndAsDefined : Prop :=
  ∀ (n : Nat) (s : State), s.run = some .running →
    (∀ t, runFor n s = .halted t → (∀ m, runFor (n + m) s = .halted t) ∧
      ∃ k u, k < n ∧ runFor k s = .unfinished u ∧ step u = .next t ∧ t.run = some .halted ∧
        opcodeOf t.ir = 0 ∧ functOf t.ir = 12 ∧ t.ir = fetchedWord u ∧ t.pc = u.pc + 4 ∧ SameRegs u t ∧
        t.dmem = u.dmem) ∧
    (∀ f, runFor n s = .faulted f → (∀ m, runFor (n + m) s = .faulted f) ∧
      ∃ k u, k < n ∧ runFor k s = .unfinished u ∧ step u = .fault f)
end

