-- ==== Sys2Proof/Laws/Encoding.lean ====
section
/-! SUPPORT. The three formats of 30_encoding.md R63 to R65 as numbers and as bits: one lemma of each kind per format. -/

namespace Sys2Proof

/-- A concatenation as a number. -/
theorem append_toNat {n m : Nat} (x : BitVec n) (y : BitVec m) :
    (x ++ y).toNat = x.toNat * 2 ^ m + y.toNat := by
  rw [BitVec.toNat_append, ← Nat.shiftLeft_add_eq_or_of_lt y.isLt, Nat.shiftLeft_eq]

theorem encodeR_toNat (funct : BitVec 6) (rs rt rd shamt : RegIdx) :
    (encodeR funct rs rt rd shamt).toNat =
      rs.toNat * 2 ^ 21 + rt.toNat * 2 ^ 16 + rd.toNat * 2 ^ 11 + shamt.toNat * 2 ^ 6 + funct.toNat := by
  have h : (encodeR funct rs rt rd shamt).toNat = (0#6 ++ rs ++ rt ++ rd ++ shamt ++ funct).toNat := rfl
  rw [h]
  simp only [append_toNat, BitVec.toNat_ofNat]
  omega

theorem encodeI_toNat (opcode : BitVec 6) (rs rt : RegIdx) (immediate : BitVec 16) :
    (encodeI opcode rs rt immediate).toNat =
      opcode.toNat * 2 ^ 26 + rs.toNat * 2 ^ 21 + rt.toNat * 2 ^ 16 + immediate.toNat := by
  have h : (encodeI opcode rs rt immediate).toNat = (opcode ++ rs ++ rt ++ immediate).toNat := rfl
  rw [h]
  simp only [append_toNat]
  omega

theorem encodeJ_toNat (opcode : BitVec 6) (address : BitVec 26) :
    (encodeJ opcode address).toNat = opcode.toNat * 2 ^ 26 + address.toNat :=
  append_toNat opcode address

theorem encodeR_getLsbD (funct : BitVec 6) (rs rt rd shamt : RegIdx) (b : Nat) :
    (encodeR funct rs rt rd shamt).getLsbD b = (0#6 ++ rs ++ rt ++ rd ++ shamt ++ funct).getLsbD b := rfl

theorem encodeI_getLsbD (opcode : BitVec 6) (rs rt : RegIdx) (immediate : BitVec 16) (b : Nat) :
    (encodeI opcode rs rt immediate).getLsbD b = (opcode ++ rs ++ rt ++ immediate).getLsbD b := rfl

theorem encodeJ_getLsbD (opcode : BitVec 6) (address : BitVec 26) (b : Nat) :
    (encodeJ opcode address).getLsbD b = (opcode ++ address).getLsbD b := rfl

end Sys2Proof
end

