-- ==== Sys2Proof/Laws/Memory.lean ====
section
/-! SUPPORT. The laws of the two memories (20_memory.md R47): a write is seen at its own slot and nowhere else, and
every memory operation keeps the canonical form. -/

namespace Sys2Proof.Machine

@[simp] theorem cellsRead_insert_same (k : Nat) (v : Word) {cells : List (Nat × Word)}
    (h : ∀ c ∈ cells, c.1 ≠ k) : cellsRead (cellsInsert k v cells) k = v := by
  induction cells with
  | nil => simp [cellsInsert, cellsRead]
  | cons c cs ih =>
    have hc := h c (by simp)
    have hcs := ih fun d hd => h d (by simp [hd])
    unfold cellsInsert
    split <;> simp [cellsRead, hc, hcs]

theorem cellsRead_insert_other {j k : Nat} (hjk : j ≠ k) (v : Word) (cells : List (Nat × Word)) :
    cellsRead (cellsInsert k v cells) j = cellsRead cells j := by
  induction cells with
  | nil => simp [cellsInsert, cellsRead, hjk.symm]
  | cons c cs ih =>
    unfold cellsInsert
    split
    · simp [cellsRead, hjk.symm]
    · simp [cellsRead, ih]

theorem cellsRead_filter_same (k : Nat) (cells : List (Nat × Word)) :
    cellsRead (cells.filter fun c => c.1 ≠ k) k = 0 := by
  induction cells with
  | nil => rfl
  | cons c cs ih =>
    by_cases h : c.1 = k
    · simpa [h] using ih
    · simpa [h, cellsRead] using ih

theorem cellsRead_filter_other {j k : Nat} (hjk : j ≠ k) (cells : List (Nat × Word)) :
    cellsRead (cells.filter fun c => c.1 ≠ k) j = cellsRead cells j := by
  induction cells with
  | nil => rfl
  | cons c cs ih =>
    by_cases h : c.1 = k
    · have : c.1 ≠ j := fun e => hjk (e ▸ h)
      simpa [h, cellsRead, hjk.symm] using ih
    · simp only [ne_eq, h, not_false_eq_true, decide_true, List.filter_cons_of_pos, cellsRead]
      simp only [ne_eq] at ih
      rw [ih]

/-- A slot reads the value last written to it. -/
@[simp] theorem read_write_same (m : Memory) (k : Nat) (v : Word) : (m.write k v).read k = v := by
  simp only [Memory.read, Memory.write, cellsWrite]
  split
  · rename_i h
    rw [h]
    exact cellsRead_filter_same k m.cells
  · exact cellsRead_insert_same k v fun c hc => by simpa using (List.mem_filter.mp hc).2

/-- A write leaves every other slot alone. -/
theorem read_write_other (m : Memory) {j k : Nat} (hjk : j ≠ k) (v : Word) :
    (m.write k v).read j = m.read j := by
  simp only [Memory.read, Memory.write, cellsWrite]
  split
  · exact cellsRead_filter_other hjk m.cells
  · rw [cellsRead_insert_other hjk]
    exact cellsRead_filter_other hjk m.cells

@[simp] theorem write_capacity (m : Memory) (k : Nat) (v : Word) : (m.write k v).capacity = m.capacity := rfl

theorem mem_cellsInsert {k : Nat} {v : Word} {cells : List (Nat × Word)} {c : Nat × Word}
    (h : c ∈ cellsInsert k v cells) : c = (k, v) ∨ c ∈ cells := by
  induction cells with
  | nil => simpa [cellsInsert] using h
  | cons d ds ih =>
    unfold cellsInsert at h
    split at h
    · simpa using h
    · rcases List.mem_cons.mp h with rfl | h
      · simp
      · rcases ih h with rfl | h <;> simp [*]

theorem cellsInsert_pairwise {k : Nat} (v : Word) {cells : List (Nat × Word)}
    (hs : cells.Pairwise fun a b => a.1 < b.1) (hk : ∀ c ∈ cells, c.1 ≠ k) :
    (cellsInsert k v cells).Pairwise fun a b => a.1 < b.1 := by
  induction cells with
  | nil => simp [cellsInsert]
  | cons c cs ih =>
    obtain ⟨hc, hcs⟩ := List.pairwise_cons.mp hs
    unfold cellsInsert
    split
    · rename_i hlt
      refine List.pairwise_cons.mpr ⟨fun d hd => ?_, hs⟩
      rcases List.mem_cons.mp hd with rfl | hd
      · exact hlt
      · exact hlt.trans (hc d hd)
    · rename_i hge
      refine List.pairwise_cons.mpr ⟨fun d hd => ?_, ih hcs fun d hd => hk d (by simp [hd])⟩
      rcases mem_cellsInsert hd with rfl | hd
      · have := hk c (by simp)
        simp only
        omega
      · exact hc d hd

/-- A write inside the capacity keeps the canonical form. -/
theorem write_wf {m : Memory} (h : m.wf) {k : Nat} (hk : k < m.capacity) (v : Word) : (m.write k v).wf := by
  obtain ⟨hs, hm⟩ := h
  have hs' : (m.cells.filter fun c => c.1 ≠ k).Pairwise fun a b => a.1 < b.1 := hs.filter _
  have hm' : ∀ c ∈ m.cells.filter fun c => c.1 ≠ k, c.2 ≠ 0 ∧ c.1 < m.capacity :=
    fun c hc => hm c (List.mem_filter.mp hc).1
  have hk' : ∀ c ∈ m.cells.filter fun c => c.1 ≠ k, c.1 ≠ k :=
    fun c hc => by simpa using (List.mem_filter.mp hc).2
  simp only [Memory.wf, Memory.write, cellsWrite]
  split
  · exact ⟨hs', hm'⟩
  · rename_i hv
    refine ⟨cellsInsert_pairwise v hs' hk', fun c hc => ?_⟩
    rcases mem_cellsInsert hc with rfl | hc
    · exact ⟨hv, hk⟩
    · exact hm' c hc

/-- An empty memory is canonical and reads zero in every slot (70_reset_and_hazards.md R170). -/
@[simp] theorem empty_wf (n : Nat) : ({ capacity := n, cells := [] } : Memory).wf := by simp [Memory.wf]

@[simp] theorem empty_read (n k : Nat) : ({ capacity := n, cells := [] } : Memory).read k = 0 := rfl

end Sys2Proof.Machine
end

