-- ==== Sys2Proof/Laws/Ops.lean ====
section
/-! SUPPORT. One lemma per shared operation: everything it can do. -/

namespace Sys2Proof.Machine

@[simp] theorem finish_ok (s t : State) : finish s (.ok t) = .next t := rfl
@[simp] theorem finish_error (s : State) (k : ErrorKind) : finish s (.error k) = raise k s := rfl

/-- An instruction completes exactly when its action gave a state, and with that state. -/
@[simp] theorem finish_eq_next {s t : State} {r : Except ErrorKind State} :
    finish s r = .next t ↔ r = .ok t := by
  cases r <;> simp [finish, raise]

/-- An instruction faults exactly when its action raised, and the fault leaves the state unchanged. -/
@[simp] theorem finish_eq_fault {s : State} {r : Except ErrorKind State} {f : Fault} :
    finish s r = .fault f ↔ ∃ k, r = .error k ∧ f = faultOf k s := by
  cases r <;> simp [finish, raise, eq_comm]

theorem finish_ne_refused {s : State} {r : Except ErrorKind State} {x : Refusal} : finish s r ≠ .refused x := by
  cases r <;> simp [finish, raise]

@[simp] theorem faultOf_kind (k : ErrorKind) (s : State) : (faultOf k s).kind = k := by cases k <;> rfl
@[simp] theorem faultOf_left (k : ErrorKind) (s : State) : (faultOf k s).left = s := by cases k <;> rfl

/-- Sequencing succeeds exactly when both parts do. -/
theorem bind_eq_ok {ε α β : Type} {x : Except ε α} {f : α → Except ε β} {b : β} :
    x.bind f = .ok b ↔ ∃ a, x = .ok a ∧ f a = .ok b := by
  cases x <;> simp [Except.bind]

/-- Sequencing fails with the first part's error, or with the second's. -/
theorem bind_eq_error {ε α β : Type} {x : Except ε α} {f : α → Except ε β} {e : ε} :
    x.bind f = .error e ↔ x = .error e ∨ ∃ a, x = .ok a ∧ f a = .error e := by
  cases x <;> simp [Except.bind]

/-- Reading a register depends on the register file only. -/
theorem readReg_congr {s t : State} (h : t.regs = s.regs) (r : RegIdx) : readReg t r = readReg s r := by
  simp [readReg, h]

/-- The register write is refused for index 0 and otherwise replaces one slot of the file. -/
theorem writeReg_eq_ok {i : RegIdx} {v : Word} {s t : State} :
    writeReg i v s = .ok t ↔ i ≠ 0 ∧ t = { s with regs := s.regs.set i.toNat v i.isLt } := by
  unfold writeReg
  split
  · exact ⟨nofun, fun h => absurd ‹i = 0› h.1⟩
  · exact ⟨fun h => ⟨‹_›, (Except.ok.inj h).symm⟩, fun h => congrArg _ h.2.symm⟩

theorem writeReg_eq_error {i : RegIdx} {v : Word} {s : State} {k : ErrorKind} :
    writeReg i v s = .error k ↔ i = 0 ∧ k = .invariantError := by
  unfold writeReg
  split
  · exact ⟨fun h => ⟨‹_›, (Except.error.inj h).symm⟩, fun h => congrArg _ h.2.symm⟩
  · exact ⟨nofun, fun h => absurd h.1 ‹_›⟩

/-- What the registers read after one slot of the file is replaced. -/
theorem readReg_set (s : State) (i r : RegIdx) (v : Word) :
    readReg { s with regs := s.regs.set i.toNat v i.isLt } r =
      if r = 0 then 0 else if r = i then v else readReg s r := by
  unfold readReg
  split
  · rfl
  · by_cases hi : r = i
    · subst hi
      simp
    · have : i.toNat ≠ r.toNat := fun e => hi (BitVec.eq_of_toNat_eq e.symm)
      simp [hi, Vector.getElem_set_ne, this]

/-- The checked addition gives the wrapped sum, and only when the sign comparison finds no overflow. -/
theorem checkedAdd_eq_ok {a b r : Word} :
    checkedAdd a b = .ok r ↔ signOverflow a b (a + b) = false ∧ r = a + b := by
  cases h : signOverflow a b (a + b) <;> simp [checkedAdd, h, eq_comm]

theorem checkedAdd_eq_error {a b : Word} {k : ErrorKind} :
    checkedAdd a b = .error k ↔ signOverflow a b (a + b) = true ∧ k = .overflowError := by
  cases h : signOverflow a b (a + b) <;> simp [checkedAdd, h, eq_comm]

/-- The bounds test of a data address gives the address itself. -/
theorem checkSlot_eq_ok {m : Memory} {e : Word} {a : Nat} :
    checkSlot m e = .ok a ↔ m.HasSlot e.toInt ∧ a = e.toNat := by
  unfold checkSlot
  split
  · exact ⟨fun h => ⟨‹_›, (Except.ok.inj h).symm⟩, fun h => congrArg _ h.2.symm⟩
  · exact ⟨nofun, fun h => absurd h.1 ‹_›⟩

theorem checkSlot_eq_error {m : Memory} {e : Word} {k : ErrorKind} :
    checkSlot m e = .error k ↔ ¬ m.HasSlot e.toInt ∧ k = .boundsError := by
  unfold checkSlot
  split
  · exact ⟨nofun, fun h => absurd ‹_› h.1⟩
  · exact ⟨fun h => ⟨‹_›, (Except.error.inj h).symm⟩, fun h => congrArg _ h.2.symm⟩

/-- A word read as a slot index is below the capacity. -/
theorem toNat_lt_of_hasSlot {m : Memory} {e : Word} (h : m.HasSlot e.toInt) : e.toNat < m.capacity := by
  obtain ⟨h0, h1⟩ := h
  rw [BitVec.toInt_eq_toNat_cond] at h0 h1
  split at h0 <;> omega

/-- The address a load or a store uses is a slot of data memory. -/
theorem effectiveAddress_lt {s : State} {rs : RegIdx} {immediate : BitVec 16} {ea : Nat}
    (h : effectiveAddress s rs immediate = .ok ea) : ea < s.dmem.capacity := by
  obtain ⟨e, -, he⟩ := bind_eq_ok.mp h
  obtain ⟨hs, rfl⟩ := checkSlot_eq_ok.mp he
  exact toNat_lt_of_hasSlot hs

/-- A taken transfer writes the target into `pc` and does nothing else; it is inside instruction memory. -/
theorem transferTo_eq_ok {t : Int} {s u : State} :
    transferTo t s = .ok u ↔ (0 ≤ t ∧ t.tdiv 4 < s.imem.capacity) ∧ u = { s with pc := BitVec.ofInt 32 t } := by
  by_cases h : t < 0 ∨ t.tdiv 4 ≥ s.imem.capacity
  · have : ¬ (0 ≤ t ∧ t.tdiv 4 < s.imem.capacity) := by omega
    simp [transferTo, checkTarget, h, this, Except.bind]
  · have : 0 ≤ t ∧ t.tdiv 4 < s.imem.capacity := by omega
    simp [transferTo, checkTarget, h, this, Except.bind, eq_comm]

theorem transferTo_eq_error {t : Int} {s : State} {k : ErrorKind} :
    transferTo t s = .error k ↔ ¬ (0 ≤ t ∧ t.tdiv 4 < s.imem.capacity) ∧ k = .boundsError := by
  by_cases h : t < 0 ∨ t.tdiv 4 ≥ s.imem.capacity
  · have : ¬ (0 ≤ t ∧ t.tdiv 4 < s.imem.capacity) := by omega
    simp [transferTo, checkTarget, h, this, Except.bind, eq_comm]
  · have : 0 ≤ t ∧ t.tdiv 4 < s.imem.capacity := by omega
    simp [transferTo, checkTarget, h, this, Except.bind]

/-- Run is the host's one move out of the state before it: the core becomes RUNNING at byte address 0. -/
theorem hostRun_eq_some {s t : State} :
    hostRun s = some t ↔ s.run = none ∧ t = { s with pc := 0, run := some .running } := by
  unfold hostRun
  split <;> simp_all [eq_comm]

/-- Every host move before Run is made while the core is not RUNNING, and keeps the run state. -/
theorem hostMove_run {s t : State} (h : HostMove s t) : s.run ≠ some .running ∧ t.run = s.run := by
  cases h with
  | load k w hr h =>
    refine ⟨hr, ?_⟩
    unfold hostLoad at h
    split_ifs at h
    cases h
    rfl
  | presetReg i n hr h =>
    refine ⟨hr, ?_⟩
    unfold hostPresetReg at h
    split_ifs at h
    obtain ⟨v, -, hw⟩ := bind_eq_ok.mp h
    obtain ⟨-, rfl⟩ := writeReg_eq_ok.mp hw
    rfl
  | presetSlot a v hr h =>
    refine ⟨hr, ?_⟩
    unfold hostPresetSlot at h
    split_ifs at h
    cases h
    rfl

end Sys2Proof.Machine
end

