-- ==== Sys2Proof/Laws/PerInstr.lean ====
section
/-! SUPPORT. Laws stated per instruction: each encoding lies in its row of the opcode table (30_encoding.md R66). -/

namespace Sys2Proof.Laws.TableRow

/-- The encoding agrees with the row's `match` under the row's `mask`. -/
def Statement (i : Instr) : Prop := encode i &&& tableMask i = tableMatch i

/-- The fixed bits of an R-format word are its opcode 0 and its funct. -/
theorem encodeR_masked (funct : BitVec 6) (rs rt rd shamt : RegIdx) :
    encodeR funct rs rt rd shamt &&& 0xFC00003F = funct.zeroExtend 32 := by
  apply BitVec.eq_of_getLsbD_eq
  intro b hb
  rw [BitVec.getLsbD_and, encodeR_getLsbD]
  simp only [BitVec.getLsbD_append]
  interval_cases b <;> simp

/-- The fixed bits of an I-format word are its opcode. -/
theorem encodeI_masked (opcode : BitVec 6) (rs rt : RegIdx) (immediate : BitVec 16) :
    encodeI opcode rs rt immediate &&& 0xFC000000 = opcode.zeroExtend 32 <<< 26 := by
  apply BitVec.eq_of_getLsbD_eq
  intro b hb
  rw [BitVec.getLsbD_and, encodeI_getLsbD]
  simp only [BitVec.getLsbD_append]
  interval_cases b <;> simp

/-- The fixed bits of a J-format word are its opcode. -/
theorem encodeJ_masked (opcode : BitVec 6) (address : BitVec 26) :
    encodeJ opcode address &&& 0xFC000000 = opcode.zeroExtend 32 <<< 26 := by
  apply BitVec.eq_of_getLsbD_eq
  intro b hb
  rw [BitVec.getLsbD_and, encodeJ_getLsbD]
  simp only [BitVec.getLsbD_append]
  interval_cases b <;> simp

theorem add (rs rt rd shamt : RegIdx) : Statement (.add rs rt rd shamt) := encodeR_masked 32 rs rt rd shamt
theorem and (rs rt rd shamt : RegIdx) : Statement (.and rs rt rd shamt) := encodeR_masked 36 rs rt rd shamt
theorem jr (rs rt rd shamt : RegIdx) : Statement (.jr rs rt rd shamt) := encodeR_masked 8 rs rt rd shamt
theorem syscall (rs rt rd shamt : RegIdx) : Statement (.syscall rs rt rd shamt) := encodeR_masked 12 rs rt rd shamt
theorem j (address : BitVec 26) : Statement (.j address) := encodeJ_masked 2 address
theorem beq (rs rt : RegIdx) (immediate : BitVec 16) : Statement (.beq rs rt immediate) :=
  encodeI_masked 4 rs rt immediate
theorem addi (rs rt : RegIdx) (immediate : BitVec 16) : Statement (.addi rs rt immediate) :=
  encodeI_masked 8 rs rt immediate
theorem andi (rs rt : RegIdx) (immediate : BitVec 16) : Statement (.andi rs rt immediate) :=
  encodeI_masked 12 rs rt immediate
theorem lw (rs rt : RegIdx) (immediate : BitVec 16) : Statement (.lw rs rt immediate) :=
  encodeI_masked 35 rs rt immediate
theorem sw (rs rt : RegIdx) (immediate : BitVec 16) : Statement (.sw rs rt immediate) :=
  encodeI_masked 43 rs rt immediate
theorem jal (address : BitVec 26) : Statement (.jal address) := encodeJ_masked 3 address

end Sys2Proof.Laws.TableRow
end

