-- ==== Sys2Proof/Laws/State.lean ====
section
/-! SUPPORT. What each named state reads as, field by field: reset, the state after the advance, and the state with a
word placed for the fetch. -/

namespace Sys2Proof.Machine

section reset
variable (m n : Nat)
@[simp] theorem resetWith_pc : (State.resetWith m n).pc = 0 := rfl
@[simp] theorem resetWith_ir : (State.resetWith m n).ir = 0 := rfl
@[simp] theorem resetWith_regs : (State.resetWith m n).regs = Vector.replicate 32 0 := rfl
@[simp] theorem resetWith_imem : (State.resetWith m n).imem = { capacity := m, cells := [] } := rfl
@[simp] theorem resetWith_dmem : (State.resetWith m n).dmem = { capacity := n, cells := [] } := rfl
@[simp] theorem resetWith_run : (State.resetWith m n).run = none := rfl
end reset

section advance
variable (s : State)
@[simp] theorem advance_pc : (advance s).pc = s.pc + 4 := rfl
@[simp] theorem advance_ir : (advance s).ir = s.ir := rfl
@[simp] theorem advance_regs : (advance s).regs = s.regs := rfl
@[simp] theorem advance_imem : (advance s).imem = s.imem := rfl
@[simp] theorem advance_dmem : (advance s).dmem = s.dmem := rfl
@[simp] theorem advance_run : (advance s).run = s.run := rfl
@[simp] theorem afterAdvance_pc : (afterAdvance s).pc = s.pc + 4 := rfl
@[simp] theorem afterAdvance_ir : (afterAdvance s).ir = fetchedWord s := rfl
@[simp] theorem afterAdvance_regs : (afterAdvance s).regs = s.regs := rfl
@[simp] theorem afterAdvance_imem : (afterAdvance s).imem = s.imem := rfl
@[simp] theorem afterAdvance_dmem : (afterAdvance s).dmem = s.dmem := rfl
@[simp] theorem afterAdvance_run : (afterAdvance s).run = s.run := rfl
end advance

section withFetchWord
variable (s : State) (nbits w : Nat)
@[simp] theorem withFetchWord_pc : (s.withFetchWord nbits w).pc = s.pc := rfl
@[simp] theorem withFetchWord_ir : (s.withFetchWord nbits w).ir = s.ir := rfl
@[simp] theorem withFetchWord_regs : (s.withFetchWord nbits w).regs = s.regs := rfl
@[simp] theorem withFetchWord_dmem : (s.withFetchWord nbits w).dmem = s.dmem := rfl
@[simp] theorem withFetchWord_run : (s.withFetchWord nbits w).run = some .running := rfl
@[simp] theorem withFetchWord_imem :
    (s.withFetchWord nbits w).imem = s.imem.write (fetchIndex s.pc) (tableWord nbits w) := rfl
end withFetchWord

end Sys2Proof.Machine
end

