-- ==== Sys2Proof/Laws/Step.lean ====
section
/-! SUPPORT. What an instruction and a step can do, said once; invariants follow from these without unfolding a meaning. -/

namespace Sys2Proof.Machine

/-- The next states an instruction can give. -/
inductive ExecNext (i : Instr) (s : State) : State → Prop where
  /-- It wrote its destination register. -/
  | register (d : RegIdx) (v : Word) : destination i = some d → d ≠ 0 →
      ExecNext i s { s with regs := s.regs.set d.toNat v d.isLt }
  /-- It stored a register into a slot of data memory. -/
  | store (rs rt : RegIdx) (immediate : BitVec 16) (ea : Nat) : i = .sw rs rt immediate →
      effectiveAddress s rs immediate = .ok ea → ExecNext i s { s with dmem := s.dmem.write ea (readReg s rt) }
  /-- It transferred control to an existing slot. -/
  | transfer (t : Int) : isTransfer i = true → 0 ≤ t → t.tdiv 4 < s.imem.capacity →
      ExecNext i s { s with pc := BitVec.ofInt 32 t }
  /-- It halted. -/
  | halt (rs rt rd shamt : RegIdx) : i = .syscall rs rt rd shamt → ExecNext i s { s with run := some .halted }
  /-- It had no effect: a branch not taken, or the unsupported jump-and-link. -/
  | nothing : destination i = none → (∀ rs rt rd shamt, i ≠ .syscall rs rt rd shamt) → ExecNext i s s

/-- Everything an instruction that completes can have done. -/
theorem exec_next_cases {i : Instr} {s t : State} (h : exec i s = .next t) : ExecNext i s t := by
  cases i with
  | add rs rt rd shamt =>
    obtain ⟨r, -, hw⟩ := bind_eq_ok.mp (finish_eq_next.mp h)
    obtain ⟨hd, rfl⟩ := writeReg_eq_ok.mp hw
    exact .register rd r rfl hd
  | and rs rt rd shamt =>
    obtain ⟨hd, rfl⟩ := writeReg_eq_ok.mp (finish_eq_next.mp h)
    exact .register rd _ rfl hd
  | addi rs rt immediate =>
    obtain ⟨r, -, hw⟩ := bind_eq_ok.mp (finish_eq_next.mp h)
    obtain ⟨hd, rfl⟩ := writeReg_eq_ok.mp hw
    exact .register rt r rfl hd
  | andi rs rt immediate =>
    obtain ⟨hd, rfl⟩ := writeReg_eq_ok.mp (finish_eq_next.mp h)
    exact .register rt _ rfl hd
  | lw rs rt immediate =>
    obtain ⟨ea, -, hw⟩ := bind_eq_ok.mp (finish_eq_next.mp h)
    obtain ⟨hd, rfl⟩ := writeReg_eq_ok.mp hw
    exact .register rt _ rfl hd
  | sw rs rt immediate =>
    obtain ⟨ea, he, hw⟩ := bind_eq_ok.mp (finish_eq_next.mp h)
    cases hw
    exact .store rs rt immediate ea rfl he
  | jr rs rt rd shamt =>
    obtain ⟨⟨h0, h1⟩, rfl⟩ := transferTo_eq_ok.mp (finish_eq_next.mp h)
    exact .transfer _ rfl h0 h1
  | j address =>
    obtain ⟨⟨h0, h1⟩, rfl⟩ := transferTo_eq_ok.mp (finish_eq_next.mp h)
    exact .transfer _ rfl h0 h1
  | beq rs rt immediate =>
    have h' := finish_eq_next.mp h
    split at h'
    · obtain ⟨⟨h0, h1⟩, rfl⟩ := transferTo_eq_ok.mp h'
      exact .transfer _ rfl h0 h1
    · cases h'
      exact .nothing rfl (by simp)
  | syscall rs rt rd shamt =>
    cases h
    exact .halt rs rt rd shamt rfl
  | jal address =>
    cases h
    exact .nothing rfl (by simp)

/-- Every fault of an instruction leaves the state it ran on. -/
theorem exec_fault_left {i : Instr} {s : State} {f : Fault} (h : exec i s = .fault f) : f.left = s := by
  cases i with
  | syscall rs rt rd shamt => cases h
  | jal address => cases h
  | _ =>
    obtain ⟨k, -, rfl⟩ := finish_eq_fault.mp h
    exact faultOf_left k s

/-- No instruction is refused. -/
theorem exec_ne_refused (i : Instr) (s : State) (x : Refusal) : exec i s ≠ .refused x := by
  cases i with
  | syscall rs rt rd shamt => exact nofun
  | jal address => exact nofun
  | _ => exact finish_ne_refused

/-- The fetch check decides between the fault that changes nothing and the execute action. -/
theorem step_running {s : State} (h : s.run = some .running) :
    step s = if FetchInRange s then dispatch (afterAdvance s) else .fault (.boundsError s) := by
  have hc : step s = cycle s := by simp only [step, h]
  rw [hc, cycle, fetch]
  by_cases hf : FetchInRange s
  · simp only [if_pos hf]
    rfl
  · simp only [if_neg hf]
    rfl

/-- The core takes no step before Run and none once HALTED. -/
theorem step_not_running {s : State} (h : s.run ≠ some .running) : ∃ r, step s = .refused r := by
  unfold step
  split
  · exact absurd ‹_› h
  · exact ⟨_, rfl⟩
  · exact ⟨_, rfl⟩

/-- Everything a step that gives a next state can have been. -/
theorem step_next_cases {s t : State} (h : step s = .next t) :
    s.run = some .running ∧ FetchInRange s ∧
      ((∃ i, decode (fetchedWord s) = .ok i ∧ exec i (afterAdvance s) = .next t) ∨
       (∃ e, decode (fetchedWord s) = .error e) ∧ t = afterAdvance s) := by
  by_cases hr : s.run = some .running
  case neg =>
    obtain ⟨r, hs⟩ := step_not_running hr
    rw [hs] at h
    cases h
  case pos =>
    rw [step_running hr] at h
    split at h
    · rename_i hf
      refine ⟨hr, hf, ?_⟩
      unfold dispatch at h
      split at h
      · rename_i i hi
        exact .inl ⟨i, hi, h⟩
      · rename_i e he
        exact .inr ⟨⟨e, he⟩, (by simpa [execUnrecognised, noEffect] using h.symm)⟩
    · simp at h

/-- Everything a step that faults can have been. -/
theorem step_fault_cases {s : State} {f : Fault} (h : step s = .fault f) :
    s.run = some .running ∧
      ((¬ FetchInRange s ∧ f = .boundsError s) ∨
       (FetchInRange s ∧ ∃ i, decode (fetchedWord s) = .ok i ∧ exec i (afterAdvance s) = .fault f)) := by
  by_cases hr : s.run = some .running
  case neg =>
    obtain ⟨r, hs⟩ := step_not_running hr
    rw [hs] at h
    cases h
  case pos =>
    rw [step_running hr] at h
    refine ⟨hr, ?_⟩
    split at h
    · rename_i hf
      refine .inr ⟨hf, ?_⟩
      unfold dispatch at h
      split at h
      · rename_i i hi
        exact ⟨i, hi, h⟩
      · simp [execUnrecognised, noEffect] at h
    · rename_i hf
      exact .inl ⟨hf, by simpa using h.symm⟩

/-- A halted core's run has ended, whatever the fuel. -/
theorem runFor_halted (n : Nat) {s : State} (h : s.run = some .halted) : runFor n s = .halted s := by
  cases n <;> simp [runFor, h]

/-- Before Run there is no run. -/
theorem runFor_notStarted (n : Nat) {s : State} (h : s.run = none) : runFor n s = .notStarted s := by
  cases n <;> simp [runFor, h]

theorem runFor_zero {s : State} (h : s.run = some .running) : runFor 0 s = .unfinished s := by
  simp [runFor, h]

/-- With fuel left, a running core takes one step. -/
theorem runFor_succ (n : Nat) {s : State} (h : s.run = some .running) :
    runFor (n + 1) s = match step s with
      | .next t => runFor n t
      | .fault f => .faulted f
      | .refused _ => .unfinished s := by
  cases hs : step s <;> simp [runFor, h, hs]

end Sys2Proof.Machine
end

