-- ==== Sys2Proof/Tests/Slice0.lean ====
section
/-! SUPPORT. Small tests on one step each, and for every statement with hypotheses a concrete input that meets them.

Every expected value is the spec's: the vectors T and V of spec/95_test_vectors.md, or hand calculation from the rule
named. The machine is the vectors' own: 16 instruction slots, 128 data slots. -/

namespace Sys2Proof.Tests

open Sys2Proof Sys2Proof.Machine

/-- A launched machine with presets: registers, instruction slots, data slots (all by rising index, none zero). -/
def machine (regs : List (RegIdx × Word)) (imem dmem : List (Nat × Word)) : State :=
  { State.resetWith 16 128 with
    regs := regs.foldl (fun r p => r.set p.1.toNat p.2 p.1.isLt) (Vector.replicate 32 0)
    imem := { capacity := 16, cells := imem }
    dmem := { capacity := 128, cells := dmem }
    run := some .running }

/-- The outcome is Next and its state passes the check. -/
def nextIs (o : Host.Outcome State Fault Refusal) (p : State → Bool) : Bool :=
  match o with
  | .next t => p t
  | .fault _ => false
  | .refused _ => false

/-- The outcome is Fault of this kind and the state it left passes the check. -/
def faultIs (o : Host.Outcome State Fault Refusal) (k : ErrorKind) (p : State → Bool) : Bool :=
  match o with
  | .next _ => false
  | .fault f => f.kind = k && p f.left
  | .refused _ => false

theorem exists_next {o : Host.Outcome State Fault Refusal} {p : State → Bool} (h : nextIs o p = true) :
    ∃ t, o = .next t ∧ p t = true := by
  cases o with
  | next t => exact ⟨t, rfl, h⟩
  | fault f => cases h
  | refused r => cases h

theorem exists_fault {o : Host.Outcome State Fault Refusal} {k : ErrorKind} {p : State → Bool}
    (h : faultIs o k p = true) : ∃ f, o = .fault f ∧ f.kind = k := by
  cases o with
  | next t => cases h
  | refused r => cases h
  | fault f => exact ⟨f, rfl, by simp [faultIs] at h; exact h.1⟩

/-! ### Well-formedness: an ill-formed term for each check -/

theorem test_register_32_refused : (AsmLine.add 32 0 0).wellFormed = false := by decide
theorem test_second_register_refused : (AsmLine.add 1 40 0).wellFormed = false := by decide
theorem test_third_register_refused : (AsmLine.and 1 2 99).wellFormed = false := by decide
theorem test_jr_register_refused : (AsmLine.jr 32).wellFormed = false := by decide
theorem test_signed_immediate_refused : (AsmLine.addi 1 1 32768).wellFormed = false := by decide
theorem test_negative_immediate_refused : (AsmLine.lw 1 (-32769) 1).wellFormed = false := by decide
theorem test_andi_negative_refused : (AsmLine.andi 1 1 (-1)).wellFormed = false := by decide
theorem test_andi_17_bits_refused : (AsmLine.andi 1 1 65536).wellFormed = false := by decide
theorem test_jump_27_bits_refused : (AsmLine.j 67108864).wellFormed = false := by decide
theorem test_lines_accepted : (AsmLine.addi 31 31 (-32768)).wellFormed = true ∧ (AsmLine.j 67108863).wellFormed = true := by
  decide
theorem test_nonzero_shamt_not_canonical : (Instr.add 1 2 3 17).isCanonical = false := by decide
theorem test_jr_unused_not_canonical : (Instr.jr 1 0 9 0).isCanonical = false := by decide
theorem test_syscall_unused_not_canonical : (Instr.syscall 0 0 0 1).isCanonical = false := by decide
theorem test_jal_address_not_canonical : (Instr.jal 2).isCanonical = false := by decide

/-! ### Decoding: words written out bit by bit from R61, R63 to R66 -/

/-- T9: opcode 000000, rs 01010, rt 01011, rd 01001, shamt 00000, funct 100000. -/
theorem test_decode_add : decode 0b00000001010010110100100000100000#32 = .ok (.add 10 11 9 0) := by decide
/-- R112: opcode 000000, rs 00101, rt 00110, rd 01000, shamt 00000, funct 100100. -/
theorem test_decode_and : decode 0b00000000101001100100000000100100#32 = .ok (.and 5 6 8 0) := by decide
/-- R132: opcode 000000, rs 00111, rest 0, funct 001000. -/
theorem test_decode_jr : decode 0b00000000111000000000000000001000#32 = .ok (.jr 7 0 0 0) := by decide
/-- V151: every unused field ones, funct 001100. -/
theorem test_decode_syscall : decode 0b00000011111111111111111111001100#32 = .ok (.syscall 31 31 31 31) := by decide
/-- R131: opcode 000010, address 3. -/
theorem test_decode_j : decode 0b00001000000000000000000000000011#32 = .ok (.j 3) := by decide
/-- R130: opcode 000100, rs 00001, rt 00010, immediate 4. -/
theorem test_decode_beq : decode 0b00010000001000100000000000000100#32 = .ok (.beq 1 2 4) := by decide
/-- R113: opcode 001000, rs 01001, rt 01100, immediate -20. -/
theorem test_decode_addi : decode 0b00100001001011001111111111101100#32 = .ok (.addi 9 12 0xFFEC) := by decide
/-- T10: opcode 001100, rs 01001, rt 01000, immediate 100. -/
theorem test_decode_andi : decode 0b00110001001010000000000001100100#32 = .ok (.andi 9 8 100) := by decide
/-- R120: opcode 100011, rs 00001, rt 00100, immediate 0. -/
theorem test_decode_lw : decode 0b10001100001001000000000000000000#32 = .ok (.lw 1 4 0) := by decide
/-- T11: opcode 101011, rs 00100, rt 00101, immediate 20. -/
theorem test_decode_sw : decode 0b10101100100001010000000000010100#32 = .ok (.sw 4 5 20) := by decide
/-- R143: opcode 000011 in the table, address 2. -/
theorem test_decode_jal : decode 0b00001100000000000000000000000010#32 = .ok (.jal 2) := by decide
/-- V153 and V157: words of no row. -/
theorem test_decode_rejects_by_name :
    decode 0x00000021 = .error (.funct 33) ∧ decode 0x3C01FFFF = .error (.opcode 15) := by decide
/-- The opcode table's match column, numbered as the table numbers bits. -/
theorem test_decode_table_word :
    decodeTableWord 32 0x8C000000 = some (.lw 0 0 0) ∧ decodeTableWord 32 0x00000000 = none := by decide

/-! ### Instructions: one step each -/

/-- T9: 5 + 12 = 17. -/
theorem test_add_scenario :
    nextIs (step (machine [(10, 5), (11, 12)] [(0, 0x014B4820)] []))
      (fun t => readReg t 9 = 17 && t.pc = 4 && t.ir = 0x014B4820) = true := by decide
/-- V53: the overflow is reported before the write to register 0. -/
theorem test_add_overflow_before_register_zero :
    faultIs (step (machine [(1, 0x7FFFFFFF), (2, 1)] [(0, 0x00220020)] [])) .overflowError
      (fun t => t.pc = 4 && t.ir = 0x00220020) = true := by decide
/-- R112's example. -/
theorem test_and_example :
    nextIs (step (machine [(5, 0xFFFFFFFF), (6, 0x0000FFFF)] [(0, 0x00A64024)] []))
      (fun t => readReg t 8 = 0x0000FFFF) = true := by decide
/-- V55. -/
theorem test_and_register_zero :
    faultIs (step (machine [] [(0, 0x00220024)] [])) .invariantError (fun t => t.pc = 4) = true := by decide
/-- R113's example: the immediate is sign-extended. -/
theorem test_addi_negative :
    nextIs (step (machine [(9, 17)] [(0, 0x212CFFEC)] [])) (fun t => readReg t 12 = 0xFFFFFFFD) = true := by decide
/-- V73: one below the minimum. -/
theorem test_addi_overflow :
    faultIs (step (machine [(1, 0x80007FFF)] [(0, 0x20228000)] [])) .overflowError
      (fun t => readReg t 2 = 0) = true := by decide
/-- V75: the immediate is zero-extended. -/
theorem test_andi_zero_extends :
    nextIs (step (machine [(1, 0xFFFFFFFF)] [(0, 0x3022FFFF)] [])) (fun t => readReg t 2 = 0x0000FFFF) = true := by
  decide
/-- V92: negative base, non-negative sum; the slot index is the sum itself. -/
theorem test_lw_negative_base :
    nextIs (step (machine [(1, 0xFFFFFFFB)] [(0, 0x8C22000A)] [(5, 0x66)])) (fun t => readReg t 2 = 0x66) = true := by
  decide
/-- V102: the bounds are tested before the write to register 0. -/
theorem test_lw_bounds_before_register_zero :
    faultIs (step (machine [(1, 0x80)] [(0, 0x8C200000)] [])) .boundsError (fun t => t.pc = 4) = true := by decide
/-- T11: slot 70, not 70 / 4. -/
theorem test_sw_scenario :
    nextIs (step (machine [(4, 50), (5, 0xDEADBEEF)] [(0, 0xAC850014)] []))
      (fun t => t.dmem.cells = [(70, 0xDEADBEEF)]) = true := by decide
/-- V105: storing register 0 clears the slot, and the memory stays canonical. -/
theorem test_sw_register_zero :
    nextIs (step (machine [] [(0, 0xAC000003)] [(3, 0x63)])) (fun t => t.dmem.cells = []) = true := by decide
/-- R130's example: at slot 3 to slot 8. -/
theorem test_beq_taken :
    nextIs (step { machine [(1, 4), (2, 4)] [(3, 0x10220004)] [] with pc := 12 }) (fun t => t.pc = 32) = true := by
  decide
/-- T12: index 16 of 16 is out of bounds. -/
theorem test_beq_bounds :
    faultIs (step (machine [] [(0, 0x1021000F)] [])) .boundsError (fun t => t.pc = 4) = true := by decide
/-- V141: a jump clears the misalignment. -/
theorem test_j_clears_misalignment :
    nextIs (step { machine [] [(2, 0x08000003)] [] with pc := 9 }) (fun t => t.pc = 12) = true := by decide
/-- V134. -/
theorem test_j_bounds :
    faultIs (step (machine [] [(0, 0x0BFFFFFF)] [])) .boundsError (fun t => t.pc = 4) = true := by decide
/-- T13's nearest legal case: 63 is slot 15, misaligned. -/
theorem test_jr_misaligned :
    nextIs (step (machine [(7, 63)] [(0, 0x00E00008)] [])) (fun t => t.pc = 63) = true := by decide
/-- T13. -/
theorem test_jr_bounds :
    faultIs (step (machine [(7, 64)] [(0, 0x00E00008)] [])) .boundsError (fun t => readReg t 7 = 64) = true := by decide
/-- R140's example. -/
theorem test_syscall_halts :
    nextIs (step { machine [] [(1, 0x0000000C)] [] with pc := 4 })
      (fun t => t.run = some .halted && t.pc = 8 && t.ir = 0x0000000C) = true := by decide
/-- V154: no jump, no link. -/
theorem test_jal_no_op :
    nextIs (step (machine [] [(0, 0x0C000002)] [])) (fun t => t.pc = 4 && readReg t 31 = 0) = true := by decide
/-- V156: the word of SUB is a no-op. -/
theorem test_unrecognised_no_op :
    nextIs (step (machine [(1, 5), (2, 3)] [(0, 0x00221822)] [])) (fun t => t.pc = 4 && readReg t 3 = 0) = true := by
  decide
/-- V159: the fetch past the last slot changes nothing. -/
theorem test_fetch_fault :
    faultIs (step { machine [(1, 1)] [] [] with pc := 64, ir := 7 }) .boundsError (fun t => t.pc = 64 && t.ir = 7) = true := by
  decide
/-- The word placed after reset is the first instruction to run (SYSCALL halts). -/
theorem test_reset_runs_placed_word :
    nextIs (step (State.reset.withFetchWord 32 0x0000000C)) (fun t => t.run = some .halted && t.pc = 4) = true := by decide

/-! ### The word type and the host boundary -/

/-- T6, V5, V7: the edge case of fromSigned, and negative readings. -/
theorem test_from_signed :
    bvFromSigned (-2147483648) = .ok (digitsOf (0x80000000 : Word)) ∧ bvFromSigned (-20) = .ok (digitsOf (0xFFFFFFEC : Word)) ∧
    bvToSigned (digitsOf (0xFFFFFFFD : Word)) = .ok (-3) := by decide
/-- V11, V22, V23. -/
theorem test_increment_slice_concat :
    bvIncrementOne (digitsOf (0x0000FFFF : Word)) = digitsOf (0x00010000 : Word) ∧
    bvSlice (digitsOf (0 : Word)) 30 3 = .error .rangeError ∧
    bvConcat (digitsOf (0 : Word)) [true] = .error .rangeError := by decide

/-! ### Witnesses: inputs that meet the statements' hypotheses, at the boundaries of their clauses -/

/-- Registers at the ends of the signed range, and the values vectors use. -/
def presets : State :=
  machine [(1, 0x7FFFFFFF), (2, 1), (3, 0x80000000), (4, 127), (5, 128), (6, 63), (7, 64), (8, 0xFFFFFFFF)] [] []

theorem test_witness_row_matches :
    (0x014B4820 : Word) &&& 0xFC00003F = 0x00000020 ∧
    decode 0x014B4820 = .ok (.add (rsOf 0x014B4820) (rtOf 0x014B4820) (rdOf 0x014B4820) (shamtOf 0x014B4820)) := by decide
theorem test_witness_no_row_matches :
    (0x00221822 : Word) &&& 0xFC00003F ∉ [0x00000020#32, 0x00000024#32, 0x00000008#32, 0x0000000C#32] ∧
    (0x00221822 : Word) &&& 0xFC000000 ∉ [0x08000000#32, 0x10000000#32, 0x20000000#32, 0x30000000#32, 0x8C000000#32, 0xAC000000#32] ∧
    { presets with ir := 0x00221822 }.ir = 0x00221822 := by decide
theorem test_witness_decoded_word : decode 0xAC850014 = .ok (.sw 4 5 20) := by decide
theorem test_witness_assembly_lines :
    (AsmLine.add 31 0 31).wellFormed = true ∧ (AsmLine.and 31 31 0).wellFormed = true ∧ (AsmLine.jr 31).wellFormed = true ∧
    (AsmLine.addi 31 0 32767).wellFormed = true ∧ (AsmLine.andi 0 31 65535).wellFormed = true ∧
    (AsmLine.lw 31 (-32768) 0).wellFormed = true ∧ (AsmLine.sw 31 32767 31).wellFormed = true ∧
    (AsmLine.beq 0 31 (-32768)).wellFormed = true ∧ (AsmLine.j 0).wellFormed = true ∧
    ({ presets with ir := 0 } : State).ir = 0 := by decide
theorem test_witness_integer_ranges :
    (0 ≤ (4294967295 : Int) ∧ (4294967295 : Int) ≤ 2 ^ 32 - 1) ∧ (4294967296 : Int) > 2 ^ 32 - 1 ∧ (-1 : Int) < 0 ∧
    FitsSigned (-2147483648) ∧ FitsSigned 2147483647 ∧ ¬ FitsSigned 2147483648 ∧ ¬ FitsSigned (-2147483649) := by decide
theorem test_witness_negation : (0x7FFFFFFF : Word) ≠ 0x80000000 ∧ (0x80000000 : Word) = 0x80000000 := by decide
theorem test_witness_slice_concat :
    16 + 16 ≤ 32 ∧ (30 : Int) + 3 > (digitsOf (0 : Word)).length ∧ 6 + 26 ≤ 32 ∧
    (digitsOf (0 : Word)).length + [true].length > 32 ∧ bvConcat [true] [false] = .ok [true, false] ∧
    ([true] : Digits) ≠ [] := by decide
theorem test_witness_register_write : (0 : RegIdx) = 0 ∧ (31 : RegIdx) ≠ 0 := by decide
theorem test_witness_destination_zero : destination (.lw 1 0 0) = some 0 := by decide
/-- Two states that differ only in a register the instruction does not read and in an instruction word, and the
instruction completes. -/
theorem test_witness_sources_only :
    (let t : State := { presets with regs := presets.regs.set 8 0, imem := presets.imem.write 3 7 }
     (∀ r ∈ sources (.addi 2 9 5), readReg t r = readReg presets r) ∧ t.pc = presets.pc ∧
     t.imem.capacity = presets.imem.capacity ∧ t.dmem = presets.dmem ∧ t.run = presets.run) ∧
    nextIs (exec (.addi 2 9 5) presets) (fun t => readReg t 9 = 6) = true := by decide
/-- 2^31 - 1 + 0 fits and 2^31 - 1 + 1 does not; -2^31 + 0 fits and -2^31 - 1 does not. -/
theorem test_witness_checked_add :
    FitsSigned ((0x7FFFFFFF : Word).toInt + (0 : Word).toInt) ∧ ¬ FitsSigned ((0x7FFFFFFF : Word).toInt + (1 : Word).toInt) ∧
    FitsSigned ((0x80000000 : Word).toInt + (0 : Word).toInt) ∧
    ¬ FitsSigned ((0x80000000 : Word).toInt + (0xFFFFFFFF : Word).toInt) := by decide
theorem test_witness_add_clauses :
    (FitsSigned ((readReg presets 1).toInt + (readReg presets 0).toInt) ∧ (9 : RegIdx) ≠ 0) ∧
    ¬ FitsSigned ((readReg presets 1).toInt + (readReg presets 2).toInt) ∧
    (FitsSigned ((readReg presets 3).toInt + (readReg presets 1).toInt) ∧ (0 : RegIdx) = 0) := by decide
theorem test_witness_addi_clauses :
    (FitsSigned ((readReg presets 1).toInt + (0xFFFF : BitVec 16).toInt) ∧ (9 : RegIdx) ≠ 0) ∧
    ¬ FitsSigned ((readReg presets 3).toInt + (0x8000 : BitVec 16).toInt) ∧
    (FitsSigned ((readReg presets 0).toInt + (0x7FFF : BitVec 16).toInt) ∧ (0 : RegIdx) = 0) := by decide
/-- Address 127 is the last slot, 128 and -1 are none, 2^31 does not fit. -/
theorem test_witness_address_clauses :
    (let e := (readReg presets 4).toInt + (0 : BitVec 16).toInt
     FitsSigned e ∧ (0 ≤ e ∧ e < presets.dmem.capacity) ∧ effectiveAddress presets 4 0 = .ok 127) ∧
    (let e := (readReg presets 5).toInt + (0 : BitVec 16).toInt
     FitsSigned e ∧ ¬ (0 ≤ e ∧ e < presets.dmem.capacity)) ∧
    (let e := (readReg presets 0).toInt + (0xFFFF : BitVec 16).toInt
     FitsSigned e ∧ ¬ (0 ≤ e ∧ e < presets.dmem.capacity)) ∧
    (let e := (readReg presets 0).toInt + (0 : BitVec 16).toInt
     FitsSigned e ∧ (0 ≤ e ∧ e < presets.dmem.capacity)) ∧
    ¬ FitsSigned ((readReg presets 1).toInt + (1 : BitVec 16).toInt) := by decide
/-- Byte addresses 0 and 63 select slots of 16; 64 and -1 do not. -/
theorem test_witness_target_clauses :
    TargetInImem presets 0 ∧ TargetInImem presets 63 ∧ ¬ TargetInImem presets 64 ∧ ¬ TargetInImem presets (-1) := by
  unfold TargetInImem
  decide
theorem test_witness_beq_clauses :
    (readReg presets 1).toInt ≠ (readReg presets 2).toInt ∧
    ((readReg presets 2).toInt = (readReg presets 2).toInt ∧
      TargetInImem { presets with pc := 4 } ({ presets with pc := 4 }.pc.toInt + (14 : BitVec 16).toInt * 4)) ∧
    ((readReg presets 2).toInt = (readReg presets 2).toInt ∧
      ¬ TargetInImem { presets with pc := 4 } ({ presets with pc := 4 }.pc.toInt + (15 : BitVec 16).toInt * 4)) := by
  unfold TargetInImem
  decide
theorem test_witness_jump_clauses :
    (let target := presets.pc.toNat / 2 ^ 28 * 2 ^ 28 + (15 : BitVec 26).toNat * 4
     target < 2 ^ 31 ∧ target < 4 * presets.imem.capacity) ∧
    (let target := presets.pc.toNat / 2 ^ 28 * 2 ^ 28 + (16 : BitVec 26).toNat * 4
     ¬ (target < 2 ^ 31 ∧ target < 4 * presets.imem.capacity)) := by decide
theorem test_witness_jr_clauses :
    TargetInImem presets (readReg presets 6).toInt ∧ ¬ TargetInImem presets (readReg presets 7).toInt ∧
    ¬ TargetInImem presets (readReg presets 8).toInt := by
  unfold TargetInImem
  decide
/-- A running machine whose next word is the given one, at slot 0. -/
def at0 (w : Word) : State := machine [] [(0, w)] []
theorem test_witness_syscall_step :
    (at0 0x03FFFFCC).run = some .running ∧ FetchInRange (at0 0x03FFFFCC) ∧
    opcodeOf (fetchedWord (at0 0x03FFFFCC)) = 0 ∧ functOf (fetchedWord (at0 0x03FFFFCC)) = 12 := by decide
theorem test_witness_unrecognised_step :
    (at0 0xFC000000).run = some .running ∧ FetchInRange (at0 0xFC000000) ∧
    opcodeOf (fetchedWord (at0 0xFC000000)) ∉ [0#6, 2#6, 4#6, 8#6, 12#6, 35#6, 43#6] ∧
    opcodeOf (fetchedWord (at0 0x00000021)) = 0 ∧
    functOf (fetchedWord (at0 0x00000021)) ∉ [8#6, 12#6, 32#6, 36#6] := by decide
theorem test_witness_jal_step :
    (at0 0x0C000002).run = some .running ∧ FetchInRange (at0 0x0C000002) ∧ opcodeOf (fetchedWord (at0 0x0C000002)) = 3 ∧
    opcodeOf (fetchedWord (at0 0x0040F809)) = 0 ∧ functOf (fetchedWord (at0 0x0040F809)) = 9 := by decide
theorem test_witness_decoded_step :
    (at0 0x20010001).run = some .running ∧ FetchInRange (at0 0x20010001) ∧
    decode (fetchedWord (at0 0x20010001)) = .ok (.addi 0 1 1) := by decide
/-- The fetch check at its boundary: 63 passes, 64 does not; a negative `pc` does not. -/
theorem test_witness_fetch_clauses :
    (0 ≤ { presets with pc := 63 }.pc.toInt ∧ { presets with pc := 63 }.pc.toInt.tdiv 4 < { presets with pc := 63 }.imem.capacity) ∧
    { presets with pc := 64 }.pc.toInt.tdiv 4 ≥ { presets with pc := 64 }.imem.capacity ∧
    { presets with pc := 0xFFFFFFFC }.pc.toInt < 0 ∧ presets.run = some .running ∧
    ¬ FetchInRange { presets with pc := 64 } := by decide
theorem test_witness_sizes : SizesInBounds presets := by
  unfold SizesInBounds Config.imemSizeMax Config.dmemSizeMax
  decide
/-- A step that completes without transferring control, and one that faults after the advance. -/
theorem test_witness_advance_clauses :
    (∃ t, step (at0 0x20010001) = .next t ∧
      ∀ i, decode (fetchedWord (at0 0x20010001)) = .ok i → isTransfer i = false) ∧
    (∃ f, step (at0 0x20000000) = .fault f ∧ f.kind = .invariantError) := by
  obtain ⟨t, ht, -⟩ := exists_next (o := step (at0 0x20010001)) (p := fun t => readReg t 1 = 1) (by decide)
  refine ⟨⟨t, ht, fun i hi => ?_⟩, exists_fault (p := fun _ => true) (by decide)⟩
  have hd : decode (fetchedWord (at0 0x20010001)) = .ok (.addi 0 1 1) := by decide
  rw [hd] at hi
  cases hi
  rfl
/-- A taken transfer: a step that puts something else than `pc + 4` into `pc` (R132's example). -/
theorem test_witness_taken_transfer :
    SizesInBounds (machine [(7, 24)] [(0, 0x00E00008)] []) ∧
    ∃ t, step (machine [(7, 24)] [(0, 0x00E00008)] []) = .next t ∧
      t.pc ≠ (machine [(7, 24)] [(0, 0x00E00008)] []).pc + 4 := by
  refine ⟨?_, ?_⟩
  · unfold SizesInBounds Config.imemSizeMax Config.dmemSizeMax
    decide
  · obtain ⟨t, ht, hp⟩ := exists_next (o := step (machine [(7, 24)] [(0, 0x00E00008)] [])) (p := fun t => t.pc = 24)
      (by decide)
    simp only [decide_eq_true_eq] at hp
    exact ⟨t, ht, by rw [hp]; decide⟩
theorem test_witness_misaligned :
    0 ≤ { presets with pc := 7 }.pc.toInt ∧ (4 : Word) = { presets with pc := 7 }.pc &&& 0xFFFFFFFC := by decide
theorem test_witness_halted : { presets with run := some .halted }.run = some .halted ∧ presets.run = some .running := by decide
theorem test_witness_exec_faults : ∃ f, exec (.and 1 2 0 0) presets = .fault f ∧ f.kind = .invariantError :=
  exists_fault (p := fun _ => true) (by decide)
theorem test_witness_fault_priority :
    (checkedSum presets (.lw 1 0 1) = some 2147483648 ∧ ¬ FitsSigned 2147483648) ∧
    (dataAddress presets (.lw 5 0 0) = some 128 ∧ FitsSigned 128 ∧ ¬ ((0 : Int) ≤ 128 ∧ (128 : Int) < presets.dmem.capacity)) ∧
    (destination (.lw 4 0 0) = some 0 ∧ checkedSum presets (.lw 4 0 0) = some 127 ∧ FitsSigned 127 ∧
      dataAddress presets (.lw 4 0 0) = some 127 ∧ (0 : Int) ≤ 127 ∧ (127 : Int) < presets.dmem.capacity) := by decide
/-- A run that is RUNNING after one step and faults in the second (V98's shape: earlier effects stand). -/
theorem test_witness_fault_after_a_step :
    ∃ u f, runFor 1 (machine [] [(0, 0x20010001), (1, 0x20000000)] []) = .unfinished u ∧ step u = .fault f := by
  obtain ⟨u, hu, hp⟩ := exists_next (o := step (machine [] [(0, 0x20010001), (1, 0x20000000)] []))
    (p := fun t => t.run = some .running && faultIs (step t) .invariantError (fun _ => true)) (by decide)
  simp only [Bool.and_eq_true, decide_eq_true_eq] at hp
  obtain ⟨f, hf, -⟩ := exists_fault hp.2
  exact ⟨u, f, by rw [runFor_succ 0 rfl, hu]; exact runFor_zero hp.1, hf⟩
/-- A run that ends Halted and one that ends Fault, each in its first step. -/
theorem test_witness_run_ends :
    (∃ t, runFor 1 (at0 0x0000000C) = .halted t) ∧ (∃ f, runFor 1 (at0 0x20000000) = .faulted f) ∧
    (at0 0x0000000C).run = some .running := by
  obtain ⟨t, ht, hp⟩ := exists_next (o := step (at0 0x0000000C)) (p := fun t => t.run = some .halted) (by decide)
  obtain ⟨f, hf, -⟩ := exists_fault (o := step (at0 0x20000000)) (k := .invariantError) (p := fun _ => true) (by decide)
  refine ⟨⟨t, ?_⟩, ⟨f, ?_⟩, rfl⟩
  · rw [runFor_succ 0 rfl, ht]
    exact runFor_halted 0 (by simpa using hp)
  · rw [runFor_succ 0 rfl, hf]
/-- A step whose word is not SW. -/
theorem test_witness_not_a_store :
    (∃ t, step (at0 0x20010001) = .next t) ∧
    ∀ rs rt immediate, decode (fetchedWord (at0 0x20010001)) ≠ .ok (.sw rs rt immediate) := by
  obtain ⟨t, ht, -⟩ := exists_next (o := step (at0 0x20010001)) (p := fun t => readReg t 1 = 1) (by decide)
  refine ⟨⟨t, ht⟩, fun rs rt immediate h => ?_⟩
  have hd : decode (fetchedWord (at0 0x20010001)) = .ok (.addi 0 1 1) := by decide
  rw [hd] at h
  cases h
/-- A store and a load of the same slot through different bases (V110's shape). -/
theorem test_witness_store_then_load :
    effectiveAddress presets 4 0xFFFF = .ok 126 ∧ effectiveAddress presets 5 0xFFFE = .ok 126 ∧ (9 : RegIdx) ≠ 0 ∧
    nextIs (exec (.sw 4 1 0xFFFF) presets)
      (fun t => t.dmem.read 126 = 0x7FFFFFFF && (effectiveAddress t 5 0xFFFE).toOption = some 126) = true := by
  decide
theorem test_presets_launch : IsLaunch presets := by
  refine ⟨rfl, rfl, rfl, ?_, test_witness_sizes, ?_⟩
  · unfold ZeroSlotHoldsZero
    decide
  · unfold MemoriesCanonical
    decide
/-- A state with the invariant from which a step completes. -/
theorem test_witness_invariant_step : Inv (at0 0x20010001) ∧ ∃ t, step (at0 0x20010001) = .next t := by
  refine ⟨⟨?_, ?_, ?_, ?_⟩, ?_⟩
  · unfold SizesInBounds Config.imemSizeMax Config.dmemSizeMax
    decide
  · unfold MemoriesCanonical
    decide
  · unfold ZeroSlotHoldsZero
    decide
  · unfold PcInRange
    decide
  · obtain ⟨t, ht, -⟩ := exists_next (o := step (at0 0x20010001)) (p := fun t => readReg t 1 = 1) (by decide)
    exact ⟨t, ht⟩
theorem test_witness_reachable : Reachable presets ∧ PcAligned presets ∧ FetchInRange presets := by
  refine ⟨.launch test_presets_launch, ?_, by decide⟩
  unfold PcAligned
  decide
/-- A JR to a multiple of 4, from an aligned `pc`. -/
theorem test_witness_aligned_transfer :
    PcAligned (machine [(7, 24)] [(0, 0x00E00008)] []) ∧
    (∃ t, step (machine [(7, 24)] [(0, 0x00E00008)] []) = .next t) ∧
    decode (fetchedWord (machine [(7, 24)] [(0, 0x00E00008)] [])) = .ok (.jr 7 0 0 0) ∧
    4 ∣ (readReg (machine [(7, 24)] [(0, 0x00E00008)] []) 7).toInt := by
  refine ⟨?_, ?_, by decide, by decide⟩
  · unfold PcAligned
    decide
  · obtain ⟨t, ht, -⟩ := exists_next (o := step (machine [(7, 24)] [(0, 0x00E00008)] [])) (p := fun t => t.pc = 24)
      (by decide)
    exact ⟨t, ht⟩
theorem test_witness_reset_sizes :
    1 ≤ 1 ∧ 1 ≤ Config.imemSizeMax ∧ 1 ≤ Config.imemSizeMax ∧ Config.imemSizeMax ≤ Config.imemSizeMax ∧
    1 ≤ Config.dmemSizeMax ∧ Config.dmemSizeMax ≤ Config.dmemSizeMax := by
  unfold Config.imemSizeMax Config.dmemSizeMax
  decide
/-- A fresh Machine, on which the host loads SYSCALL and then invokes Run (R173). -/
theorem test_witness_fresh :
    IsFresh (State.resetWith 16 128) ∧ (∃ t, HostMove (State.resetWith 16 128) t) ∧
    (hostRun (State.resetWith 16 128)).isSome = true := by
  refine ⟨⟨rfl, rfl, rfl, ?_, ?_, ?_⟩, ⟨_, .load 0 (digitsOf (12 : Word)) (by decide) rfl⟩, by decide⟩
  · unfold ZeroSlotHoldsZero
    decide
  · unfold SizesInBounds Config.imemSizeMax Config.dmemSizeMax
    decide
  · unfold MemoriesCanonical
    decide
/-- R170: the core takes no step until Run is invoked, and R30: none once HALTED. -/
theorem test_no_step_unless_running :
    (match step State.reset with
      | .refused r => decide (r = .coreNotStarted)
      | .next _ => false
      | .fault _ => false) = true ∧
    (match step { presets with run := some .halted } with
      | .refused r => decide (r = .coreHalted)
      | .next _ => false
      | .fault _ => false) = true := by decide
/-- R173: Run, then the first instruction. -/
theorem test_run_then_step :
    (match hostRun State.reset with
      | some t => nextIs (step t) (fun u => u.pc = 4 && u.run = some .running)
      | none => false) = true := by decide
theorem test_witness_load :
    ((15 : Int) < presets.imem.capacity ∧ (digitsOf (12 : Word)).length = 32) ∧ (16 : Int) ≥ presets.imem.capacity ∧
    ([true] : Digits).length ≠ 32 ∧ (hostLoad 15 (digitsOf (12 : Word)) presets).toOption.isSome = true := by decide
theorem test_witness_presets :
    (hostPresetReg 31 (-1) presets).toOption.isSome = true ∧ (hostPresetSlot 127 7 presets).toOption.isSome = true ∧
    ¬ FitsSigned 2147483648 ∧ ¬ ((0 : Int) ≤ 128 ∧ (128 : Int) < presets.dmem.capacity) := by decide
/-- The three one-word loops, each at slot 0 of a launch state (V139, V135, V123). -/
theorem test_witness_loops :
    fetchedWord (at0 0x00000008) = 0x00000008 ∧ fetchedWord (at0 0x08000000) = 0x08000000 ∧
    fetchedWord (at0 0x1000FFFF) = 0x1000FFFF ∧ FetchInRange (at0 0x1000FFFF) ∧ IsLaunch (at0 0x00000008) ∧
    SizesInBounds (at0 0x1000FFFF) := by
  refine ⟨by decide, by decide, by decide, by decide, ⟨rfl, rfl, rfl, ?_, ?_, ?_⟩, ?_⟩
  · unfold ZeroSlotHoldsZero
    decide
  · unfold SizesInBounds Config.imemSizeMax Config.dmemSizeMax
    decide
  · unfold MemoriesCanonical
    decide
  · unfold SizesInBounds Config.imemSizeMax Config.dmemSizeMax
    decide

end Sys2Proof.Tests
end

section
/-! What a step leaves of the sizes and the run state, which faults it can raise, and what a host move can do: the facts
behind the statements of 00_scope.md (R6, R7, R11, R12). -/

namespace Sys2Proof.Machine

/-! ### The sizes -/

/-- No instruction touches a capacity: only a store changes a memory at all, and a write keeps the capacity. -/
theorem ExecNext.capacity {i : Instr} {s t : State} (h : ExecNext i s t) :
    t.imem.capacity = s.imem.capacity ∧ t.dmem.capacity = s.dmem.capacity := by
  cases h with
  | store rs rt immediate ea => exact ⟨rfl, write_capacity s.dmem ea (readReg s rt)⟩
  | _ => exact ⟨rfl, rfl⟩

theorem step_next_capacity {s t : State} (h : step s = .next t) :
    t.imem.capacity = s.imem.capacity ∧ t.dmem.capacity = s.dmem.capacity := by
  obtain ⟨-, -, ⟨i, -, he⟩ | ⟨-, rfl⟩⟩ := step_next_cases h
  · exact (exec_next_cases he).capacity
  · exact ⟨rfl, rfl⟩

/-- Settles O47: an instruction's own effect and the empty action both keep the two capacities. -/
theorem stepsKeepTheSizes : Obligations.StepsKeepTheSizes :=
  fun _ _ => step_next_capacity

/-! ### The three outcomes of a step -/

/-- An instruction leaves the run state alone or halts. -/
theorem ExecNext.run_eq {i : Instr} {s t : State} (h : ExecNext i s t) : t.run = s.run ∨ t.run = some .halted := by
  cases h with
  | halt => exact .inr rfl
  | _ => exact .inl rfl

/-- A step ends RUNNING or HALTED (R30). -/
theorem step_next_run {s t : State} (h : step s = .next t) : t.run = some .running ∨ t.run = some .halted := by
  obtain ⟨hr, -, ⟨i, -, he⟩ | ⟨-, rfl⟩⟩ := step_next_cases h
  · rw [← hr]
    exact (exec_next_cases he).run_eq
  · exact .inl hr

/-- A core that is not RUNNING has neither a next state nor a fault (R12, R30, R170). -/
theorem step_stuck_of_not_running {s : State} (h : s.run ≠ some .running) :
    (∀ t, step s ≠ .next t) ∧ ∀ f, step s ≠ .fault f :=
  ⟨fun _ ht => h (step_next_cases ht).1, fun _ hf => h (step_fault_cases hf).1⟩

/-- A RUNNING core always takes its step: no instruction is refused, and a word of no row has the empty action. -/
theorem step_running_ne_refused {s : State} (h : s.run = some .running) (x : Refusal) : step s ≠ .refused x := by
  rw [step_running h]
  split
  · unfold dispatch
    split
    · exact exec_ne_refused _ _ x
    · exact finish_ne_refused (s := afterAdvance s) (r := .ok (afterAdvance s))
  · exact nofun

/-- The two faults of a data address (R122). -/
theorem effectiveAddress_error_kind {s : State} {rs : RegIdx} {immediate : BitVec 16} {k : ErrorKind}
    (h : effectiveAddress s rs immediate = .error k) : k = .overflowError ∨ k = .boundsError := by
  obtain hsum | ⟨e, -, hslot⟩ := bind_eq_error.mp h
  · exact .inl (checkedAdd_eq_error.mp hsum).2
  · exact .inr (checkSlot_eq_error.mp hslot).2

/-- The two faults of a checked sum stored in a register (R111, R113). -/
theorem checkedAdd_writeReg_error_kind {a b : Word} {d : RegIdx} {s : State} {k : ErrorKind}
    (h : ((checkedAdd a b).bind fun r => writeReg d r s) = .error k) :
    k = .overflowError ∨ (k = .invariantError ∧ d = 0) := by
  obtain hsum | ⟨r, -, hw⟩ := bind_eq_error.mp h
  · exact .inl (checkedAdd_eq_error.mp hsum).2
  · exact .inr (writeReg_eq_error.mp hw).symm

/-- An instruction raises only the kinds of its row of R156's table. -/
theorem exec_fault_mayRaise {i : Instr} {s : State} {f : Fault} (h : exec i s = .fault f) :
    mayRaise i f.kind = true := by
  cases i with
  | syscall | jal => cases h
  | add | addi =>
    obtain ⟨k, hk, rfl⟩ := finish_eq_fault.mp h
    simpa [mayRaise] using checkedAdd_writeReg_error_kind hk
  | and | andi =>
    obtain ⟨k, hk, rfl⟩ := finish_eq_fault.mp h
    simpa [mayRaise] using (writeReg_eq_error.mp hk).symm
  | lw rs rt immediate =>
    obtain ⟨k, hk, rfl⟩ := finish_eq_fault.mp h
    obtain hea | ⟨ea, -, hw⟩ := bind_eq_error.mp hk
    · simpa [mayRaise] using Or.inl (effectiveAddress_error_kind hea)
    · simpa [mayRaise] using Or.inr (writeReg_eq_error.mp hw).symm
  | sw rs rt immediate =>
    obtain ⟨k, hk, rfl⟩ := finish_eq_fault.mp h
    obtain hea | ⟨ea, -, hw⟩ := bind_eq_error.mp hk
    · simpa [mayRaise] using effectiveAddress_error_kind hea
    · cases hw
  | beq rs rt immediate =>
    obtain ⟨k, hk, rfl⟩ := finish_eq_fault.mp h
    split at hk
    · simpa [mayRaise] using (transferTo_eq_error.mp hk).2
    · cases hk
  | j | jr =>
    obtain ⟨k, hk, rfl⟩ := finish_eq_fault.mp h
    simpa [mayRaise] using (transferTo_eq_error.mp hk).2

/-- RangeError and StateError are in no execute row of R156's table: they belong to the host boundary. -/
theorem mayRaise_core_kind {i : Instr} {k : ErrorKind} (h : mayRaise i k = true) :
    k ∈ [ErrorKind.overflowError, .boundsError, .invariantError] := by
  cases k with
  | rangeError => cases i <;> simp [mayRaise] at h
  | stateError => cases i <;> simp [mayRaise] at h
  | _ => simp

theorem step_fault_kind {s : State} {f : Fault} (h : step s = .fault f) :
    f.kind ∈ [ErrorKind.overflowError, .boundsError, .invariantError] := by
  obtain ⟨-, ⟨-, rfl⟩ | ⟨-, i, -, he⟩⟩ := step_fault_cases h
  · simp [Fault.kind]
  · exact mayRaise_core_kind (exec_fault_mayRaise he)

/-- A fault of the fetch leaves the state itself, a fault of the execute action the state after the advance (R158). -/
theorem step_fault_left {s : State} {f : Fault} (h : step s = .fault f) :
    f.left = s ∨ f.left = afterAdvance s := by
  obtain ⟨-, ⟨-, rfl⟩ | ⟨-, i, -, he⟩⟩ := step_fault_cases h
  · exact .inl rfl
  · exact .inr (exec_fault_left he)

/-- Settles O36: a RUNNING core is not refused, so its step is Next, Halted or Fault; any other core is stuck. -/
theorem stepIsTotalWhileRunning : Obligations.StepIsTotalWhileRunning := by
  refine fun s => ⟨fun hr => ?_, step_stuck_of_not_running⟩
  cases hs : step s with
  | next t =>
    obtain hrun | hhalt := step_next_run hs
    · exact .inl ⟨t, rfl, hrun⟩
    · exact .inr (.inl ⟨t, rfl, hhalt, step_stuck_of_not_running (by simp [hhalt])⟩)
  | fault f => exact .inr (.inr ⟨f, rfl, step_fault_kind hs, step_fault_left hs⟩)
  | refused x => exact absurd hs (step_running_ne_refused hr x)

/-! ### The host's moves and the launch state -/

/-- Load succeeds exactly for an existing slot and a 32-digit word, and writes that slot (R31). -/
theorem hostLoad_eq_ok {k : Int} {w : Digits} {s t : State} :
    hostLoad k w s = .ok t ↔ s.imem.HasSlot k ∧ w.length = 32 ∧
      t = { s with imem := s.imem.write k.toNat (wordOfDigits w) } := by
  unfold hostLoad
  split_ifs with hk hw
  · exact ⟨nofun, fun ⟨_, hlen, _⟩ => absurd hlen hw⟩
  · exact ⟨fun h => ⟨hk, not_not.mp hw, (Except.ok.inj h).symm⟩, fun ⟨_, _, ht⟩ => congrArg _ ht.symm⟩
  · exact ⟨nofun, fun ⟨hslot, _⟩ => absurd hslot hk⟩

/-- A register preset succeeds exactly for an encodable number and an index other than 0, and sets that register (R33). -/
theorem hostPresetReg_eq_ok {i : RegIdx} {n : Int} {s t : State} :
    hostPresetReg i n s = .ok t ↔ i ≠ 0 ∧ ∃ v, bvFromSigned n = .ok v ∧
      t = { s with regs := s.regs.set i.toNat (wordOfDigits v) i.isLt } := by
  unfold hostPresetReg
  split_ifs with hi
  · exact ⟨nofun, fun h => absurd hi h.1⟩
  · simp only [bind_eq_ok, writeReg_eq_ok, exists_and_left, and_left_comm]

/-- A data preset succeeds exactly for an existing slot, and writes it (R33). -/
theorem hostPresetSlot_eq_ok {a : Int} {v : Word} {s t : State} :
    hostPresetSlot a v s = .ok t ↔ s.dmem.HasSlot a ∧ t = { s with dmem := s.dmem.write a.toNat v } := by
  unfold hostPresetSlot
  split_ifs with ha
  · exact ⟨fun h => ⟨ha, (Except.ok.inj h).symm⟩, fun h => congrArg _ h.2.symm⟩
  · exact ⟨nofun, fun h => absurd h.1 ha⟩

/-- A write to an existing slot keeps the canonical form. -/
theorem write_wf_of_hasSlot {m : Memory} (hm : m.wf) {a : Int} (ha : m.HasSlot a) (v : Word) :
    (m.write a.toNat v).wf := by
  obtain ⟨h0, hlt⟩ := ha
  exact write_wf hm (by omega) v

/-- A write to a register other than 0 leaves the stored slot 0 alone. -/
theorem ZeroSlotHoldsZero.set {s : State} (h : ZeroSlotHoldsZero s) {i : RegIdx} (hi : i ≠ 0) (v : Word) :
    ZeroSlotHoldsZero { s with regs := s.regs.set i.toNat v i.isLt } := by
  have hne : i.toNat ≠ 0 := fun e => hi (BitVec.eq_of_toNat_eq e)
  exact (Vector.getElem_set_ne i.isLt (by decide) hne).trans h

/-- A Machine as constructed, with sizes inside the spec's bounds, is fresh (R170). -/
theorem resetWith_isFresh {m n : Nat} (hm : 1 ≤ m) (hm' : m ≤ Config.imemSizeMax) (hn : 1 ≤ n)
    (hn' : n ≤ Config.dmemSizeMax) : IsFresh (State.resetWith m n) :=
  ⟨rfl, rfl, rfl, by simp [ZeroSlotHoldsZero], ⟨hm, hm', hn, hn'⟩, empty_wf m, empty_wf n⟩

/-- Load and the presets keep a Machine fresh: each writes one existing slot, or one register other than 0. -/
theorem IsFresh.hostMove {s t : State} (hs : IsFresh s) (h : HostMove s t) : IsFresh t := by
  obtain ⟨hpc, hir, hrun, hzero, hsizes, himem, hdmem⟩ := hs
  cases h with
  | load k w _ h =>
    obtain ⟨hk, -, rfl⟩ := hostLoad_eq_ok.mp h
    exact ⟨hpc, hir, hrun, hzero, hsizes, write_wf_of_hasSlot himem hk _, hdmem⟩
  | presetReg i n _ h =>
    obtain ⟨hi, v, -, rfl⟩ := hostPresetReg_eq_ok.mp h
    exact ⟨hpc, hir, hrun, hzero.set hi _, hsizes, himem, hdmem⟩
  | presetSlot a v _ h =>
    obtain ⟨ha, rfl⟩ := hostPresetSlot_eq_ok.mp h
    exact ⟨hpc, hir, hrun, hzero, hsizes, himem, write_wf_of_hasSlot hdmem ha _⟩

/-- Run of a fresh Machine gives a launch state; `pc` was zero already, so only the run state changes (R171, R173). -/
theorem IsFresh.exists_hostRun {s : State} (hs : IsFresh s) :
    ∃ t, hostRun s = some t ∧ IsLaunch t ∧ OnlyRunStateChanges s t := by
  obtain ⟨hpc, hir, hrun, hinv⟩ := hs
  exact ⟨_, hostRun_eq_some.mpr ⟨hrun, rfl⟩, ⟨rfl, hir, rfl, hinv⟩,
    fun _ => rfl, hpc.symm, rfl, ⟨rfl, fun _ => rfl⟩, ⟨rfl, fun _ => rfl⟩⟩

/-- There is no second Run (D13). -/
theorem hostRun_eq_none {s : State} (h : s.run ≠ none) : hostRun s = none :=
  Option.eq_none_iff_forall_ne_some.mpr fun _ ht => h (hostRun_eq_some.mp ht).1

/-- Settles O51: each host move keeps a Machine fresh, Run launches it, and from RUNNING the host has no move (R11). -/
theorem hostMovesGiveLaunchStates : Obligations.HostMovesGiveLaunchStates := by
  refine ⟨fun _ _ => resetWith_isFresh, fun _ _ => IsFresh.hostMove, fun _ => IsFresh.exists_hostRun, fun s hs => ?_⟩
  obtain ⟨-, -, hrun, -⟩ := hs
  exact ⟨hostRun_eq_none (by simp [hrun]), fun t ht => (hostMove_run ht).1 hrun⟩

end Sys2Proof.Machine
end

section
/-! The register file, what an instruction reads and writes of it, and the run state: the statements of 10_state.md
R23, R24, R25 and R30. -/

namespace Sys2Proof.Machine

/-! ### The register write -/

/-- Register 0 reads zero always (R23). -/
@[simp] theorem readReg_zero (s : State) : readReg s 0 = 0 := rfl

/-- A register other than 0 reads the word last put into its slot. -/
theorem readReg_set_same (s : State) {i : RegIdx} (hi : i ≠ 0) (v : Word) :
    readReg { s with regs := s.regs.set i.toNat v i.isLt } i = v := by
  rw [readReg_set, if_neg hi, if_pos rfl]

/-- Replacing slot `i` of the register file leaves everything but register `i` alone. -/
theorem onlyRegChanges_set (s : State) (i : RegIdx) (v : Word) :
    OnlyRegChanges i s { s with regs := s.regs.set i.toNat v i.isLt } := by
  refine ⟨fun r hr => ?_, rfl, rfl, rfl, ⟨rfl, fun _ => rfl⟩, rfl, fun _ => rfl⟩
  rw [readReg_set, if_neg hr]
  split
  · rename_i h0
    rw [h0, readReg_zero]
  · rfl

/-- Every word is in the range that R24 validates. -/
theorem fitsSigned_toInt (v : Word) : FitsSigned v.toInt :=
  ⟨BitVec.le_toInt v, Int.le_of_lt_add_one BitVec.toInt_lt⟩

/-- Settles O15: index 0 is refused, and any other write replaces one slot of the file. -/
theorem registerWriteReplacesOneRegister : Obligations.RegisterWriteReplacesOneRegister :=
  fun i v s => ⟨fitsSigned_toInt v, fun hi => writeReg_eq_error.mpr ⟨hi, rfl⟩, fun hi =>
    ⟨_, writeReg_eq_ok.mpr ⟨hi, rfl⟩, readReg_set_same s hi v, onlyRegChanges_set s i v⟩⟩

/-! ### What an instruction writes -/

/-- The instructions that replace `pc` write no register: none links (R136). -/
theorem destination_of_isTransfer {i : Instr} (h : isTransfer i = true) : destination i = none := by
  cases i <;> cases h <;> rfl

/-- An instruction that completes has a destination other than register 0, or none (R23). -/
theorem ExecNext.destination_ne_zero {i : Instr} {s t : State} (h : ExecNext i s t) : destination i ≠ some 0 := by
  cases h with
  | register d v hd hd0 => exact fun h0 => hd0 (Option.some.inj (hd.symm.trans h0))
  | store rs rt immediate ea hi => simp [hi, destination]
  | transfer a ha => simp [destination_of_isTransfer ha]
  | halt rs rt rd shamt hi => simp [hi, destination]
  | nothing hd => simp [hd]

/-- An instruction writes no register but its destination (R25). -/
theorem ExecNext.readReg_eq {i : Instr} {s t : State} (h : ExecNext i s t) {r : RegIdx}
    (hr : destination i ≠ some r) : readReg t r = readReg s r := by
  cases h with
  | register d v hd => exact (onlyRegChanges_set s d v).1 r fun e => hr (e ▸ hd)
  | _ => rfl

/-- Settles O14: a read of register 0 is zero by definition, its write is refused, and an instruction with destination
0 ends in that refused write or in an earlier fault. -/
theorem registerZeroIsHardwired : Obligations.RegisterZeroIsHardwired :=
  ⟨readReg_zero, fun _ _ => writeReg_eq_error.mpr ⟨rfl, rfl⟩,
    fun _ _ _ hd h => (exec_next_cases h).destination_ne_zero hd⟩

/-! ### What an instruction reads -/

/-- The states `s` and `t` agree on all that `i` reads: its source registers, `pc`, data memory, the run state and the
size of instruction memory (R25). -/
def SameInputs (i : Instr) (s t : State) : Prop :=
  (∀ r ∈ sources i, readReg t r = readReg s r) ∧
  t.pc = s.pc ∧ t.imem.capacity = s.imem.capacity ∧ t.dmem = s.dmem ∧ t.run = s.run

/-- From `t`, `i` completes with the effects it has from a state where it gives `s'`. -/
def CompletesAlike (i : Instr) (t s' : State) : Prop :=
  ∃ t', exec i t = .next t' ∧ t'.pc = s'.pc ∧ t'.imem = t.imem ∧ t'.dmem = s'.dmem ∧ t'.run = s'.run ∧
    ∀ d, destination i = some d → readReg t' d = readReg s' d

/-- The effective address depends on its base register and on data memory only (R122). -/
theorem effectiveAddress_congr {s t : State} {rs : RegIdx} (hr : readReg t rs = readReg s rs) (hd : t.dmem = s.dmem)
    (immediate : BitVec 16) : effectiveAddress t rs immediate = effectiveAddress s rs immediate := by
  rw [effectiveAddress, effectiveAddress, hr, hd]

section congruence
variable {i : Instr} {s t s' : State}

/-- The register write of an instruction succeeds in every state, with the same value in the destination. -/
theorem SameInputs.completesAlike_of_writeReg (h : SameInputs i s t) {d : RegIdx} {v : Word}
    (hd : destination i = some d) (hw : writeReg d v s = .ok s')
    (ht : ∀ t', writeReg d v t = .ok t' → exec i t = .next t') : CompletesAlike i t s' := by
  obtain ⟨-, hpc, -, hdmem, hrun⟩ := h
  obtain ⟨hd0, rfl⟩ := writeReg_eq_ok.mp hw
  refine ⟨_, ht _ (writeReg_eq_ok.mpr ⟨hd0, rfl⟩), hpc, rfl, hdmem, hrun, fun e he => ?_⟩
  obtain rfl : d = e := Option.some.inj (hd.symm.trans he)
  rw [readReg_set_same t hd0, readReg_set_same s hd0]

/-- An instruction without a destination completes alike when the other fields it leaves agree. -/
theorem CompletesAlike.of_no_destination {t' : State} (hd : destination i = none) (ht : exec i t = .next t')
    (hpc : t'.pc = s'.pc) (himem : t'.imem = t.imem) (hdmem : t'.dmem = s'.dmem) (hrun : t'.run = s'.run) :
    CompletesAlike i t s' :=
  ⟨t', ht, hpc, himem, hdmem, hrun, fun d he => by simp [hd] at he⟩

/-- A taken transfer depends on its target and on the size of instruction memory only (R133). -/
theorem SameInputs.completesAlike_of_transferTo (h : SameInputs i s t) {a : Int} (hd : destination i = none)
    (hs : transferTo a s = .ok s') (ht : ∀ t', transferTo a t = .ok t' → exec i t = .next t') :
    CompletesAlike i t s' := by
  obtain ⟨-, -, hcap, hdmem, hrun⟩ := h
  obtain ⟨hrange, rfl⟩ := transferTo_eq_ok.mp hs
  exact .of_no_destination hd (ht _ (transferTo_eq_ok.mpr ⟨hcap ▸ hrange, rfl⟩)) rfl rfl hdmem hrun

end congruence

/-- An instruction that completes in one state completes alike in every state that agrees on its inputs (R25): each
value it computes is a function of them. -/
theorem SameInputs.completesAlike {i : Instr} {s t s' : State} (h : SameInputs i s t) (hs : exec i s = .next s') :
    CompletesAlike i t s' := by
  have ⟨hsrc, hpc, _, hdmem, hrun⟩ := h
  cases i with
  | add rs rt rd shamt =>
    obtain ⟨v, hv, hw⟩ := bind_eq_ok.mp (finish_eq_next.mp hs)
    refine h.completesAlike_of_writeReg rfl hw fun t' ht => finish_eq_next.mpr (bind_eq_ok.mpr ⟨v, ?_, ht⟩)
    rw [hsrc rs (.head _), hsrc rt (.tail _ (.head _)), hv]
  | and rs rt rd shamt =>
    refine h.completesAlike_of_writeReg rfl (finish_eq_next.mp hs) fun t' ht => finish_eq_next.mpr ?_
    rw [hsrc rs (.head _), hsrc rt (.tail _ (.head _)), ht]
  | addi rs rt immediate =>
    obtain ⟨v, hv, hw⟩ := bind_eq_ok.mp (finish_eq_next.mp hs)
    refine h.completesAlike_of_writeReg rfl hw fun t' ht => finish_eq_next.mpr (bind_eq_ok.mpr ⟨v, ?_, ht⟩)
    rw [hsrc rs (.head _), hv]
  | andi rs rt immediate =>
    refine h.completesAlike_of_writeReg rfl (finish_eq_next.mp hs) fun t' ht => finish_eq_next.mpr ?_
    rw [hsrc rs (.head _), ht]
  | lw rs rt immediate =>
    obtain ⟨ea, hea, hw⟩ := bind_eq_ok.mp (finish_eq_next.mp hs)
    refine h.completesAlike_of_writeReg rfl hw fun t' ht => finish_eq_next.mpr (bind_eq_ok.mpr ⟨ea, ?_, ?_⟩)
    · rw [effectiveAddress_congr (hsrc rs (.head _)) hdmem, hea]
    · rw [hdmem, ht]
  | sw rs rt immediate =>
    obtain ⟨ea, hea, hw⟩ := bind_eq_ok.mp (finish_eq_next.mp hs)
    cases hw
    refine .of_no_destination rfl (finish_eq_next.mpr (bind_eq_ok.mpr ⟨ea, ?_, rfl⟩)) hpc rfl ?_ hrun
    · rw [effectiveAddress_congr (hsrc rs (.head _)) hdmem, hea]
    · simp only [hdmem, hsrc rt (.tail _ (.head _))]
  | jr rs rt rd shamt =>
    refine h.completesAlike_of_transferTo rfl (finish_eq_next.mp hs) fun t' ht => finish_eq_next.mpr ?_
    rw [hsrc rs (.head _), ht]
  | j address =>
    refine h.completesAlike_of_transferTo rfl (finish_eq_next.mp hs) fun t' ht => finish_eq_next.mpr ?_
    rw [jumpTarget, hpc, ← jumpTarget, ht]
  | beq rs rt immediate =>
    have hs' := finish_eq_next.mp hs
    have heq : (readReg t rs = readReg t rt) = (readReg s rs = readReg s rt) := by
      rw [hsrc rs (.head _), hsrc rt (.tail _ (.head _))]
    split at hs'
    case isTrue hc =>
      refine h.completesAlike_of_transferTo rfl hs' fun t' ht => finish_eq_next.mpr ?_
      rw [if_pos (heq.mpr hc), branchTarget, hpc, ← branchTarget, ht]
    case isFalse hc =>
      cases hs'
      exact .of_no_destination rfl (finish_eq_next.mpr (if_neg (heq ▸ hc))) hpc rfl hdmem hrun
  | syscall rs rt rd shamt =>
    cases hs
    exact .of_no_destination rfl rfl hpc rfl hdmem rfl
  | jal address =>
    cases hs
    exact .of_no_destination rfl rfl hpc rfl hdmem hrun

/-- Settles O16: a state that agrees on the inputs completes alike, and only the destination register is written. -/
theorem instructionsReadOnlyTheirSources : Obligations.InstructionsReadOnlyTheirSources :=
  ⟨fun _ _ _ _ hsrc hpc hcap hdmem hrun hs => SameInputs.completesAlike ⟨hsrc, hpc, hcap, hdmem, hrun⟩ hs,
    fun _ _ _ hs _ hr => (exec_next_cases hs).readReg_eq hr⟩

/-! ### The halt -/

/-- The words of SYSCALL's row are those with opcode 0 and funct 12 (R66). -/
theorem decode_eq_syscall_iff (w : Word) :
    (∃ rs rt rd shamt, decode w = .ok (.syscall rs rt rd shamt)) ↔ opcodeOf w = 0 ∧ functOf w = 12 := by
  constructor
  · rintro ⟨rs, rt, rd, shamt, h⟩
    unfold decode decodeFunct at h
    split_ifs at h with hop _ _ _ hfunct <;> cases h
    exact ⟨hop, hfunct⟩
  · rintro ⟨hop, hfunct⟩
    exact ⟨rsOf w, rtOf w, rdOf w, shamtOf w, by simp [decode, decodeFunct, hop, hfunct]⟩

/-- Of the instructions, SYSCALL alone halts a RUNNING core. -/
theorem ExecNext.halted_iff {i : Instr} {s t : State} (h : ExecNext i s t) (hs : s.run = some .running) :
    t.run = some .halted ↔ ∃ rs rt rd shamt, i = .syscall rs rt rd shamt := by
  have hrunning : s.run ≠ some .halted := by simp [hs]
  cases h with
  | register d v hd => exact iff_of_false hrunning fun ⟨_, _, _, _, hi⟩ => by simp [hi, destination] at hd
  | store rs rt immediate ea hi => exact iff_of_false hrunning (by simp [hi])
  | transfer a ha => exact iff_of_false hrunning fun ⟨_, _, _, _, hi⟩ => by simp [hi, isTransfer] at ha
  | halt rs rt rd shamt hi => exact iff_of_true rfl ⟨rs, rt, rd, shamt, hi⟩
  | nothing hd hne => exact iff_of_false hrunning fun ⟨rs, rt, rd, shamt, hi⟩ => hne rs rt rd shamt hi

/-- A step ends HALTED exactly when the word it fetched is the halt word (R30). -/
theorem step_halts_iff {s t : State} (h : step s = .next t) :
    t.run = some .halted ↔ opcodeOf (fetchedWord s) = 0 ∧ functOf (fetchedWord s) = 12 := by
  rw [← decode_eq_syscall_iff]
  obtain ⟨hrun, -, ⟨i, hi, he⟩ | ⟨⟨e, he⟩, rfl⟩⟩ := step_next_cases h
  · rw [(exec_next_cases he).halted_iff hrun, hi]
    simp
  · simp [he, hrun]

/-- A fault leaves the core RUNNING, as it was. -/
theorem step_fault_run {s : State} {f : Fault} (h : step s = .fault f) :
    s.run = some .running ∧ f.left.run = some .running := by
  obtain ⟨hrun, -⟩ := step_fault_cases h
  obtain hl | hl := step_fault_left h <;> simp [hl, hrun]

/-- Settles O37: Run and the launch states are RUNNING, and only the halt word's own arm sets HALTED. -/
theorem onlyTheHaltWordHalts : Obligations.OnlyTheHaltWordHalts := by
  refine ⟨fun s t h => ?_, fun s h => ?_, fun s t h => ⟨(step_next_cases h).1, step_halts_iff h⟩,
    fun s f => step_fault_run⟩
  · obtain ⟨-, rfl⟩ := hostRun_eq_some.mp h
    rfl
  · obtain ⟨-, -, hrun, -⟩ := h
    exact hrun

end Sys2Proof.Machine
end

section
/-! The digits of the source's word type as bit vectors (40_bitvector.md R80 to R86): `digitsOf` is inverted by the
positional value, and each primitive of the host boundary is the bit vector's operation. -/

namespace Sys2Proof.Machine

/-! ### Digits and their value -/

@[simp] theorem digitsOf_length {n : Nat} (x : BitVec n) : (digitsOf x).length = n := by simp [digitsOf]

@[simp] theorem digitsOf_getElem {n : Nat} (x : BitVec n) {p : Nat} (hp : p < (digitsOf x).length) :
    (digitsOf x)[p] = x.getMsbD p := by simp [digitsOf]

/-- The least significant digit counts once and every other one twice what it did. -/
theorem digitsValue_concat (v : Digits) (d : Bool) : digitsValue (v ++ [d]) = 2 * digitsValue v + d.toNat := by
  simp [digitsValue]

theorem digitsValue_lt (v : Digits) : digitsValue v < 2 ^ v.length := by
  induction v using List.reverseRecOn with
  | nil => simp [digitsValue]
  | append_singleton v d ih =>
    have hd := d.toNat_lt
    rw [digitsValue_concat, List.length_append, List.length_singleton, pow_succ]
    omega

/-- Bit `k` of the value is the digit `k` places from the end. -/
theorem testBit_digitsValue (v : Digits) (k : Nat) : (digitsValue v).testBit k = v.reverse.getD k false := by
  induction v using List.reverseRecOn generalizing k with
  | nil => simp [digitsValue]
  | append_singleton v d ih =>
    have hbit : digitsValue (v ++ [d]) = Nat.bit d (digitsValue v) := by
      rw [digitsValue_concat, Nat.bit_val]
    cases k with
    | zero => simp [hbit]
    | succ k => simp [hbit, Nat.testBit_bit_succ, ih]

/-- Digits are read back from their value. -/
theorem digitsOf_digitsValue {n : Nat} {v : Digits} (h : v.length = n) :
    digitsOf (BitVec.ofNat n (digitsValue v)) = v := by
  refine List.ext_getElem (by simp [h]) fun p _ hp => ?_
  have hp' : n - 1 - p < v.reverse.length := by simp; omega
  have hsub : v.length - 1 - (n - 1 - p) = p := by omega
  rw [digitsOf_getElem, BitVec.getMsbD_eq_getLsbD, BitVec.getLsbD_ofNat, testBit_digitsValue,
    List.getD_eq_getElem _ _ hp']
  simp [hsub, show p < n by omega, show n - 1 - p < n by omega]

theorem digitsOf_injective {n : Nat} : Function.Injective (digitsOf (n := n)) := fun x y h =>
  BitVec.eq_of_getMsbD_eq fun p hp => by
    rw [← digitsOf_getElem x (by simpa using hp), ← digitsOf_getElem y (by simpa using hp)]
    simp only [h]

/-- The value of a bit vector's digits is its unsigned value. -/
@[simp] theorem digitsValue_digitsOf {n : Nat} (x : BitVec n) : digitsValue (digitsOf x) = x.toNat := by
  have hlt : digitsValue (digitsOf x) < 2 ^ n := by simpa using digitsValue_lt (digitsOf x)
  have hx : BitVec.ofNat n (digitsValue (digitsOf x)) = x :=
    digitsOf_injective (digitsOf_digitsValue (digitsOf_length x))
  rw [← Nat.mod_eq_of_lt hlt, ← BitVec.toNat_ofNat, hx]

@[simp] theorem wordOfDigits_digitsOf (w : Word) : wordOfDigits (digitsOf w) = w := by
  rw [wordOfDigits, digitsValue_digitsOf, BitVec.ofNat_toNat, BitVec.setWidth_eq]

/-! ### The primitives -/

/-- `invert` is the bitwise complement (R85). -/
theorem bvInvert_digitsOf {n : Nat} (hn : 1 ≤ n) (x : BitVec n) : bvInvert (digitsOf x) = .ok (digitsOf (~~~x)) := by
  have hne : digitsOf x ≠ [] := List.ne_nil_of_length_pos ((digitsOf_length x).symm ▸ hn)
  have hinv : bvInvert (digitsOf x) = .ok ((digitsOf x).map not) := by
    cases hv : digitsOf x with
    | nil => exact absurd hv hne
    | cons d ds => rfl
  rw [hinv]
  refine congrArg _ (List.ext_getElem (by simp) fun p hp _ => ?_)
  simp [show p < n by simpa using hp]

/-- The ripple carry adds one to the value, modulo two to the number of digits (R86). -/
theorem digitsValue_rippleIncrement (v : Digits) :
    digitsValue (rippleIncrement v).reverse = (digitsValue v.reverse + 1) % 2 ^ v.length := by
  induction v with
  | nil => rfl
  | cons d ds ih =>
    have hlt : digitsValue ds.reverse < 2 ^ ds.length := by simpa using digitsValue_lt ds.reverse
    rw [List.reverse_cons, digitsValue_concat, List.length_cons, pow_succ']
    cases d with
    | false =>
      rw [rippleIncrement, List.reverse_cons, digitsValue_concat, Nat.mod_eq_of_lt (by simp; omega)]
      simp
    | true =>
      rw [rippleIncrement, List.reverse_cons, digitsValue_concat, ih, ← Nat.mul_mod_mul_left]
      simp [Nat.mul_add]

@[simp] theorem rippleIncrement_length (v : Digits) : (rippleIncrement v).length = v.length := by
  induction v with
  | nil => rfl
  | cons d ds ih => cases d <;> simp [rippleIncrement, ih]

/-- `incrementOne` adds one and wraps (R86). -/
theorem bvIncrementOne_digitsOf {n : Nat} (x : BitVec n) : bvIncrementOne (digitsOf x) = digitsOf (x + 1#n) := by
  have hlen : (bvIncrementOne (digitsOf x)).length = n := by simp [bvIncrementOne]
  have hval : digitsValue (bvIncrementOne (digitsOf x)) = (x.toNat + 1) % 2 ^ n := by
    simp [bvIncrementOne, digitsValue_rippleIncrement]
  rw [← digitsOf_digitsValue hlen, hval]
  refine congrArg digitsOf (BitVec.eq_of_toNat_eq ?_)
  simp

/-- `fromUnsigned` of a number in range gives the digits of its word (R81). -/
theorem bvFromUnsigned_natCast {m : Nat} (hm : m ≤ 4294967295) :
    bvFromUnsigned m = .ok (digitsOf (BitVec.ofNat 32 m)) := by
  rw [bvFromUnsigned, if_neg (by omega)]
  refine congrArg _ (List.map_congr_left fun p hp => ?_)
  have hp' : p < 32 := List.mem_range.mp hp
  rw [BitVec.getMsbD_eq_getLsbD, BitVec.getLsbD_ofNat]
  simp [hp', show 31 - p < 32 by omega]

/-- `fromSigned` of a number in range gives the digits of its two's-complement word (R82): the complement plus one is
the negation. -/
theorem bvFromSigned_of_fitsSigned {n : Int} (hn : FitsSigned n) :
    bvFromSigned n = .ok (digitsOf (BitVec.ofInt 32 n)) := by
  obtain ⟨hlo, hhi⟩ := hn
  rw [bvFromSigned, if_neg (by omega), bvFromUnsigned_natCast (by omega), Except.bind]
  split_ifs with hneg
  · have hw : BitVec.ofInt 32 n = ~~~BitVec.ofNat 32 n.natAbs + 1#32 := by
      rw [← BitVec.neg_eq_not_add, ← BitVec.ofInt_natCast, ← BitVec.ofInt_neg, Int.ofNat_natAbs_of_nonpos hneg.le,
        neg_neg]
    rw [bvInvert_digitsOf (by decide), hw, ← bvIncrementOne_digitsOf]
    rfl
  · rw [← BitVec.ofInt_natCast, Int.natAbs_of_nonneg (not_lt.mp hneg)]

theorem bvFromSigned_of_not_fitsSigned {n : Int} (hn : ¬ FitsSigned n) : bvFromSigned n = .error .rangeError := by
  rw [bvFromSigned, if_pos (by omega)]

theorem toInt_ofInt_of_fitsSigned {n : Int} (hn : FitsSigned n) : (BitVec.ofInt 32 n).toInt = n :=
  BitVec.toInt_ofInt_eq_self (by decide) hn.1 (Int.lt_add_one_of_le hn.2)

end Sys2Proof.Machine
end

section
/-! The host's Load and its presets (10_state.md R31, R33). -/

namespace Sys2Proof.Machine

/-- A core that is RUNNING admits no host move (R11). -/
theorem no_hostMove_of_running {s : State} (h : s.run = some .running) (t : State) : ¬ HostMove s t :=
  fun ht => (hostMove_run ht).1 h

/-- A Load is refused, with RangeError, exactly for a slot that does not exist or another number of digits (R31). -/
theorem hostLoad_eq_error {k : Int} {w : Digits} {s : State} {e : ErrorKind} :
    hostLoad k w s = .error e ↔ (¬ s.imem.HasSlot k ∨ w.length ≠ 32) ∧ e = .rangeError := by
  unfold hostLoad
  split_ifs with hk hw
  · exact ⟨fun h => ⟨.inr hw, (Except.error.inj h).symm⟩, fun h => congrArg _ h.2.symm⟩
  · exact ⟨nofun, fun ⟨h, _⟩ => h.elim (absurd hk) (absurd · hw)⟩
  · exact ⟨fun h => ⟨.inl hk, (Except.error.inj h).symm⟩, fun h => congrArg _ h.2.symm⟩

/-- Settles O49: a Load is the write of one slot with the word that has the given digits. -/
theorem loadPlacesOneWord : Obligations.LoadPlacesOneWord := by
  refine fun k w s => ⟨fun hk => ?_, fun hw => ?_, fun h0 hlt hw => ?_, no_hostMove_of_running⟩
  · have hslot : ¬ s.imem.HasSlot k := fun ⟨h0, hlt⟩ => by omega
    exact hostLoad_eq_error.mpr ⟨.inl hslot, rfl⟩
  · exact hostLoad_eq_error.mpr ⟨.inr hw, rfl⟩
  · have hload := hostLoad_eq_ok.mpr ⟨⟨h0, hlt⟩, hw, rfl⟩
    refine ⟨_, hload, ?_, fun j hj => read_write_other s.imem hj _, write_capacity _ _ _, fun _ => rfl,
      ⟨rfl, fun _ => rfl⟩, rfl, rfl, rfl, fun hr => .load k w hr hload⟩
    rw [read_write_same]
    exact digitsOf_digitsValue hw

/-- Replacing a slot of data memory leaves everything but that slot alone. -/
theorem onlySlotChanges_write (s : State) (a : Nat) (v : Word) :
    OnlySlotChanges a s { s with dmem := s.dmem.write a v } :=
  ⟨fun _ => rfl, rfl, rfl, rfl, ⟨rfl, fun _ => rfl⟩, write_capacity s.dmem a v,
    fun _ hb => read_write_other s.dmem hb v⟩

theorem hostPresetReg_zero (n : Int) (s : State) : hostPresetReg 0 n s = .error .invariantError := rfl

/-- A number outside the signed range is refused before the register write (R33). -/
theorem hostPresetReg_of_not_fitsSigned {i : RegIdx} (hi : i ≠ 0) {n : Int} (hn : ¬ FitsSigned n) (s : State) :
    hostPresetReg i n s = .error .rangeError := by
  rw [hostPresetReg, if_neg hi, bvFromSigned_of_not_fitsSigned hn, Except.bind]

/-- A preset with a number in range puts its two's-complement word into the register (R33). -/
theorem hostPresetReg_of_fitsSigned {i : RegIdx} (hi : i ≠ 0) {n : Int} (hn : FitsSigned n) (s : State) :
    hostPresetReg i n s = .ok { s with regs := s.regs.set i.toNat (BitVec.ofInt 32 n) i.isLt } :=
  hostPresetReg_eq_ok.mpr ⟨hi, _, bvFromSigned_of_fitsSigned hn, by rw [wordOfDigits_digitsOf]⟩

theorem hostPresetSlot_of_not_hasSlot {a : Int} {s : State} (ha : ¬ s.dmem.HasSlot a) (v : Word) :
    hostPresetSlot a v s = .error .boundsError :=
  if_neg ha

/-- Settles O50: the presets are the replacement of one slot of the register file and of data memory. -/
theorem presetsSetOneRegisterOrSlot : Obligations.PresetsSetOneRegisterOrSlot := by
  refine ⟨fun i n s => ⟨?_, fun hi hn => hostPresetReg_of_not_fitsSigned hi hn s, fun hi hn => ?_⟩,
    fun _ => no_hostMove_of_running, fun a v s => ⟨fun ha => hostPresetSlot_of_not_hasSlot ha v, fun h0 hlt => ?_⟩⟩
  · rintro rfl
    exact hostPresetReg_zero n s
  · refine ⟨_, hostPresetReg_of_fitsSigned hi hn s, ?_, onlyRegChanges_set s i _⟩
    rw [readReg_set_same s hi, toInt_ofInt_of_fitsSigned hn]
  · exact ⟨_, hostPresetSlot_eq_ok.mpr ⟨⟨h0, hlt⟩, rfl⟩, read_write_same s.dmem _ v, onlySlotChanges_write s _ v⟩

end Sys2Proof.Machine
end

section
/-! Who writes the two memories and the program counter, and what a load finds after a store: the statements of
20_memory.md R42, R46, R50 and R53. -/

namespace Sys2Proof.Machine

/-! ### Instruction memory -/

/-- No instruction writes instruction memory (R53). -/
theorem ExecNext.imem_eq {i : Instr} {s t : State} (h : ExecNext i s t) : t.imem = s.imem := by
  cases h with
  | _ => rfl

theorem step_next_imem {s t : State} (h : step s = .next t) : t.imem = s.imem := by
  obtain ⟨-, -, ⟨i, -, he⟩ | ⟨-, rfl⟩⟩ := step_next_cases h
  · exact (exec_next_cases he).imem_eq
  · exact afterAdvance_imem s

theorem step_fault_imem {s : State} {f : Fault} (h : step s = .fault f) : f.left.imem = s.imem := by
  obtain hl | hl := step_fault_left h
  · rw [hl]
  · rw [hl, afterAdvance_imem]

/-- The state in which a run stands, however it stands. -/
def RunEnd.left : RunEnd → State
  | .halted s | .unfinished s | .notStarted s => s
  | .faulted f => f.left

/-- What every step keeps, and every fault leaves, holds in whatever state a run stands. -/
theorem runFor_left_induction {P : State → Prop} (hnext : ∀ s t, step s = .next t → P s → P t)
    (hfault : ∀ s f, step s = .fault f → P s → P f.left) (n : Nat) {s : State} (hs : P s) :
    P (runFor n s).left := by
  induction n generalizing s with
  | zero =>
    match hr : s.run with
    | none => rwa [runFor_notStarted 0 hr]
    | some .halted => rwa [runFor_halted 0 hr]
    | some .running => rwa [runFor_zero hr]
  | succ n ih =>
    match hr : s.run with
    | none => rwa [runFor_notStarted _ hr]
    | some .halted => rwa [runFor_halted _ hr]
    | some .running =>
      rw [runFor_succ n hr]
      cases hstep : step s with
      | next t => exact ih (hnext s t hstep hs)
      | fault f => exact hfault s f hstep hs
      | refused x => exact hs

theorem runFor_left_imem (n : Nat) (s : State) : (runFor n s).left.imem = s.imem :=
  runFor_left_induction (P := fun t => t.imem = s.imem) (fun _ _ ht h => (step_next_imem ht).trans h)
    (fun _ _ hf h => (step_fault_imem hf).trans h) n rfl

/-- Settles O41: no step and no fault writes instruction memory, so by induction on the fuel no run does. -/
theorem runsNeverWriteInstructionMemory : Obligations.RunsNeverWriteInstructionMemory := by
  intro n s
  have hleft := runFor_left_imem n s
  refine ⟨fun t h => ?_, fun t h => ?_, fun f h => ?_⟩ <;> rwa [h] at hleft

/-! ### Data memory -/

/-- Every instruction but SW leaves data memory alone (R42). -/
theorem ExecNext.dmem_eq {i : Instr} {s t : State} (h : ExecNext i s t)
    (hi : ∀ rs rt immediate, i ≠ .sw rs rt immediate) : t.dmem = s.dmem := by
  cases h with
  | store rs rt immediate _ hsw => exact absurd hsw (hi rs rt immediate)
  | _ => rfl

/-- Settles O42: the step's instruction is not SW, and a word of no row has no effect. -/
theorem onlySwWritesDataMemory : Obligations.OnlySwWritesDataMemory := by
  intro s t h hsw
  obtain ⟨-, -, ⟨i, hi, he⟩ | ⟨-, rfl⟩⟩ := step_next_cases h
  · exact (exec_next_cases he).dmem_eq fun rs rt immediate e => hsw rs rt immediate (e ▸ hi)
  · exact afterAdvance_dmem s

/-- SW at an existing slot completes, and stores the register into that slot (R121). -/
theorem exec_sw_of_effectiveAddress {s : State} {rs : RegIdx} {immediate : BitVec 16} {ea : Nat}
    (h : effectiveAddress s rs immediate = .ok ea) (rt : RegIdx) :
    exec (.sw rs rt immediate) s = .next { s with dmem := s.dmem.write ea (readReg s rt) } :=
  finish_eq_next.mpr (bind_eq_ok.mpr ⟨ea, h, rfl⟩)

/-- LW from an existing slot into a register other than 0 completes, and loads that slot (R120). -/
theorem exec_lw_of_effectiveAddress {s : State} {rs rt : RegIdx} {immediate : BitVec 16} {ea : Nat}
    (h : effectiveAddress s rs immediate = .ok ea) (hrt : rt ≠ 0) :
    exec (.lw rs rt immediate) s = .next { s with regs := s.regs.set rt.toNat (s.dmem.read ea) rt.isLt } :=
  finish_eq_next.mpr (bind_eq_ok.mpr ⟨ea, h, writeReg_eq_ok.mpr ⟨hrt, rfl⟩⟩)

/-- Settles O43: the load reads the slot's value, which is the one the store wrote there. -/
theorem loadReturnsTheLastStore : Obligations.LoadReturnsTheLastStore := by
  intro rs rt rs' rt' imm imm' s t u ea hea hstore hslot hea' hrt'
  rw [exec_sw_of_effectiveAddress hea] at hstore
  cases hstore
  refine ⟨_, exec_lw_of_effectiveAddress hea' hrt', ?_⟩
  rw [readReg_set_same u hrt', hslot, read_write_same]

/-! ### The two low bits of the program counter -/

/-- An instruction that does not transfer control leaves `pc` alone (R26). -/
theorem ExecNext.pc_eq {i : Instr} {s t : State} (h : ExecNext i s t) (hi : isTransfer i = false) : t.pc = s.pc := by
  cases h with
  | transfer _ htr => exact absurd htr (by simp [hi])
  | _ => rfl

/-- A step that does not transfer control only advances `pc` (R102). -/
theorem step_next_pc {s t : State} (h : step s = .next t)
    (hi : ∀ i, decode (fetchedWord s) = .ok i → isTransfer i = false) : t.pc = s.pc + 4 := by
  obtain ⟨-, -, ⟨i, hdec, he⟩ | ⟨-, rfl⟩⟩ := step_next_cases h
  · exact (exec_next_cases he).pc_eq (hi i hdec)
  · exact afterAdvance_pc s

/-- Adding 4 keeps the two low bits. -/
theorem extractLsb'_two_add_four (w : Word) : (w + 4).extractLsb' 0 2 = w.extractLsb' 0 2 := by
  apply BitVec.eq_of_toNat_eq
  simp only [BitVec.extractLsb'_toNat, BitVec.toNat_add, BitVec.reduceToNat, Nat.shiftRight_zero]
  omega

theorem msb_eq_false_of_nonneg {w : Word} (h : 0 ≤ w.toInt) : w.msb = false := by
  simpa [BitVec.msb_eq_toInt] using h

theorem toInt_tdiv_four_of_nonneg {w : Word} (h : 0 ≤ w.toInt) : w.toInt.tdiv 4 = (w.toNat / 4 : Nat) := by
  rw [BitVec.toInt_eq_toNat_of_msb (msb_eq_false_of_nonneg h)]
  exact (Int.ofNat_tdiv w.toNat 4).symm

/-- For a non-negative `pc` the fetched slot is `pc` div 4 (R46). -/
theorem fetchIndex_of_nonneg {pc : Word} (h : 0 ≤ pc.toInt) : fetchIndex pc = pc.toNat / 4 := by
  rw [fetchIndex, toInt_tdiv_four_of_nonneg h, Int.toNat_natCast]

/-- Clearing the two low bits rounds down to a multiple of 4. -/
theorem toNat_clear_low_bits (w : Word) : (w &&& 0xFFFFFFFC).toNat = w.toNat / 4 * 4 := by
  have hmask : (0xFFFFFFFC : Word) = BitVec.allOnes 32 <<< 2 := by decide
  rw [hmask, ← BitVec.shiftLeft_ushiftRight, BitVec.toNat_shiftLeft, BitVec.toNat_ushiftRight,
    Nat.shiftRight_eq_div_pow, Nat.shiftLeft_eq]
  have hlt := w.isLt
  omega

/-- Clearing the two low bits of a non-negative `pc` keeps it non-negative and selects the same slot (R46). -/
theorem clear_low_bits_of_nonneg {pc : Word} (h : 0 ≤ pc.toInt) :
    0 ≤ (pc &&& 0xFFFFFFFC).toInt ∧ (pc &&& 0xFFFFFFFC).toInt.tdiv 4 = pc.toInt.tdiv 4 := by
  have hnonneg : 0 ≤ (pc &&& 0xFFFFFFFC).toInt :=
    BitVec.toInt_nonneg_of_msb_false (by rw [BitVec.msb_and, msb_eq_false_of_nonneg h, Bool.false_and])
  refine ⟨hnonneg, ?_⟩
  rw [toInt_tdiv_four_of_nonneg hnonneg, toInt_tdiv_four_of_nonneg h, toNat_clear_low_bits,
    Nat.mul_div_cancel _ (by decide)]

/-- Settles O35: rounding `pc` down changes neither side of the fetch check, and the advance adds a multiple of 4. -/
theorem fetchTruncatesMisalignedPc : Obligations.FetchTruncatesMisalignedPc := by
  intro s _ hpc
  obtain ⟨hnonneg, hslot⟩ := clear_low_bits_of_nonneg hpc
  refine ⟨fun s' hpc' himem => ⟨?_, ?_⟩, ?_, fun t ht hdec => ?_⟩
  · simp only [FetchInRange, hpc', himem, hslot, hnonneg, hpc]
  · simp only [fetchedWord, fetchIndex, hpc', himem, hslot]
  · rw [fetchedWord, fetchIndex_of_nonneg hpc]
  · rw [step_next_pc ht hdec, extractLsb'_two_add_four]

end Sys2Proof.Machine
end

section
/-! The formats of 30_encoding.md R61 to R67 as a bijection: the arithmetic of the eight fields, the fields of a word of
each format, the word of its own fields, and from these the decoder's one law, that it inverts `encode`. -/

namespace Sys2Proof

/-! ### The fields as numbers -/

section fields
variable (w : Word)

theorem opcodeOf_toNat : (opcodeOf w).toNat = w.toNat / 2 ^ 26 := by
  rw [opcodeOf, BitVec.extractLsb'_toNat, Nat.shiftRight_eq_div_pow]
  omega

theorem rsOf_toNat : (rsOf w).toNat = w.toNat / 2 ^ 21 % 32 := by
  rw [rsOf, BitVec.extractLsb'_toNat, Nat.shiftRight_eq_div_pow]

theorem rtOf_toNat : (rtOf w).toNat = w.toNat / 2 ^ 16 % 32 := by
  rw [rtOf, BitVec.extractLsb'_toNat, Nat.shiftRight_eq_div_pow]

theorem rdOf_toNat : (rdOf w).toNat = w.toNat / 2 ^ 11 % 32 := by
  rw [rdOf, BitVec.extractLsb'_toNat, Nat.shiftRight_eq_div_pow]

theorem shamtOf_toNat : (shamtOf w).toNat = w.toNat / 2 ^ 6 % 32 := by
  rw [shamtOf, BitVec.extractLsb'_toNat, Nat.shiftRight_eq_div_pow]

theorem functOf_toNat : (functOf w).toNat = w.toNat % 64 := BitVec.extractLsb'_toNat 0 6 w

theorem immediateOf_toNat : (immediateOf w).toNat = w.toNat % 2 ^ 16 := BitVec.extractLsb'_toNat 0 16 w

theorem addressOf_toNat : (addressOf w).toNat = w.toNat % 2 ^ 26 := BitVec.extractLsb'_toNat 0 26 w

end fields

/-! ### The fields of a word of each format -/

section formatR
variable (funct : BitVec 6) (rs rt rd shamt : RegIdx)

@[simp] theorem opcodeOf_encodeR : opcodeOf (encodeR funct rs rt rd shamt) = 0 := by
  apply BitVec.eq_of_toNat_eq
  rw [opcodeOf_toNat, encodeR_toNat]
  exact Nat.div_eq_of_lt (by omega)

@[simp] theorem rsOf_encodeR : rsOf (encodeR funct rs rt rd shamt) = rs := by
  apply BitVec.eq_of_toNat_eq
  rw [rsOf_toNat, encodeR_toNat]
  omega

@[simp] theorem rtOf_encodeR : rtOf (encodeR funct rs rt rd shamt) = rt := by
  apply BitVec.eq_of_toNat_eq
  rw [rtOf_toNat, encodeR_toNat]
  omega

@[simp] theorem rdOf_encodeR : rdOf (encodeR funct rs rt rd shamt) = rd := by
  apply BitVec.eq_of_toNat_eq
  rw [rdOf_toNat, encodeR_toNat]
  omega

@[simp] theorem shamtOf_encodeR : shamtOf (encodeR funct rs rt rd shamt) = shamt := by
  apply BitVec.eq_of_toNat_eq
  rw [shamtOf_toNat, encodeR_toNat]
  omega

@[simp] theorem functOf_encodeR : functOf (encodeR funct rs rt rd shamt) = funct :=
  BitVec.extractLsb'_append_eq_right

/-- The six fields of an R-format word determine it (R63). -/
theorem encodeR_fields (w : Word) (h : opcodeOf w = 0) :
    encodeR (functOf w) (rsOf w) (rtOf w) (rdOf w) (shamtOf w) = w := by
  have hop : w.toNat / 2 ^ 26 = 0 := by rw [← opcodeOf_toNat, h]; rfl
  apply BitVec.eq_of_toNat_eq
  rw [encodeR_toNat, functOf_toNat, rsOf_toNat, rtOf_toNat, rdOf_toNat, shamtOf_toNat]
  omega

end formatR

section formatI
variable (opcode : BitVec 6) (rs rt : RegIdx) (immediate : BitVec 16)

@[simp] theorem opcodeOf_encodeI : opcodeOf (encodeI opcode rs rt immediate) = opcode := by
  apply BitVec.eq_of_toNat_eq
  rw [opcodeOf_toNat, encodeI_toNat]
  omega

@[simp] theorem rsOf_encodeI : rsOf (encodeI opcode rs rt immediate) = rs := by
  apply BitVec.eq_of_toNat_eq
  rw [rsOf_toNat, encodeI_toNat]
  omega

@[simp] theorem rtOf_encodeI : rtOf (encodeI opcode rs rt immediate) = rt := by
  apply BitVec.eq_of_toNat_eq
  rw [rtOf_toNat, encodeI_toNat]
  omega

@[simp] theorem immediateOf_encodeI : immediateOf (encodeI opcode rs rt immediate) = immediate :=
  BitVec.extractLsb'_append_eq_right

/-- The four fields of an I-format word determine it (R64). -/
theorem encodeI_fields (w : Word) : encodeI (opcodeOf w) (rsOf w) (rtOf w) (immediateOf w) = w := by
  apply BitVec.eq_of_toNat_eq
  rw [encodeI_toNat, opcodeOf_toNat, rsOf_toNat, rtOf_toNat, immediateOf_toNat]
  omega

end formatI

section formatJ
variable (opcode : BitVec 6) (address : BitVec 26)

@[simp] theorem opcodeOf_encodeJ : opcodeOf (encodeJ opcode address) = opcode :=
  BitVec.extractLsb'_append_eq_left

@[simp] theorem addressOf_encodeJ : addressOf (encodeJ opcode address) = address :=
  BitVec.extractLsb'_append_eq_right

/-- The two fields of a J-format word determine it (R65). -/
theorem encodeJ_fields (w : Word) : encodeJ (opcodeOf w) (addressOf w) = w := by
  apply BitVec.eq_of_toNat_eq
  rw [encodeJ_toNat, opcodeOf_toNat, addressOf_toNat]
  omega

end formatJ

/-! ### The selected instruction, format by format -/

section selection
variable (w : Word)

/-- A word's own fields under a `funct` make the word again exactly when the word is R-format with that `funct`. -/
theorem encodeR_fields_eq_iff (funct : BitVec 6) :
    encodeR funct (rsOf w) (rtOf w) (rdOf w) (shamtOf w) = w ↔ opcodeOf w = 0 ∧ functOf w = funct := by
  constructor
  · intro h
    rw [← h]
    exact ⟨opcodeOf_encodeR .., functOf_encodeR ..⟩
  · rintro ⟨hop, rfl⟩
    exact encodeR_fields w hop

theorem encodeI_fields_eq_iff (opcode : BitVec 6) :
    encodeI opcode (rsOf w) (rtOf w) (immediateOf w) = w ↔ opcodeOf w = opcode := by
  constructor
  · intro h
    rw [← h]
    exact opcodeOf_encodeI ..
  · rintro rfl
    exact encodeI_fields w

theorem encodeJ_fields_eq_iff (opcode : BitVec 6) : encodeJ opcode (addressOf w) = w ↔ opcodeOf w = opcode := by
  constructor
  · intro h
    rw [← h]
    exact opcodeOf_encodeJ ..
  · rintro rfl
    exact encodeJ_fields w

end selection

/-! ### Decode inverts encode -/

/-- The dispatch on `funct` answers the instruction whose encoding the word is. -/
theorem encode_of_decodeFunct {w : Word} {i : Instr} (hop : opcodeOf w = 0) (h : decodeFunct w = .ok i) :
    encode i = w := by
  unfold decodeFunct at h
  split_ifs at h with hadd hand hjr hsyscall <;> cases h
  · exact (encodeR_fields_eq_iff w 32).mpr ⟨hop, hadd⟩
  · exact (encodeR_fields_eq_iff w 36).mpr ⟨hop, hand⟩
  · exact (encodeR_fields_eq_iff w 8).mpr ⟨hop, hjr⟩
  · exact (encodeR_fields_eq_iff w 12).mpr ⟨hop, hsyscall⟩

/-- The dispatch on `opcode` answers the instruction whose encoding the word is: no bit is dropped. -/
theorem encode_of_decode {w : Word} {i : Instr} (h : decode w = .ok i) : encode i = w := by
  unfold decode at h
  split_ifs at h with hop hj hjal hbeq haddi handi hlw hsw
  case pos => exact encode_of_decodeFunct hop h
  all_goals cases h
  · exact (encodeJ_fields_eq_iff w 2).mpr hj
  · exact (encodeJ_fields_eq_iff w 3).mpr hjal
  · exact (encodeI_fields_eq_iff w 4).mpr hbeq
  · exact (encodeI_fields_eq_iff w 8).mpr haddi
  · exact (encodeI_fields_eq_iff w 12).mpr handi
  · exact (encodeI_fields_eq_iff w 35).mpr hlw
  · exact (encodeI_fields_eq_iff w 43).mpr hsw

/-- The fields read from an encoding are the operands, and its `opcode` and `funct` select the instruction's own row. -/
@[simp] theorem decode_encode (i : Instr) : decode (encode i) = .ok i := by
  cases i with
  | add | and | jr | syscall => simp [encode, decode, decodeFunct]
  | j | jal | beq | addi | andi | lw | sw => simp [encode, decode]

theorem decode_eq_ok_iff {w : Word} {i : Instr} : decode w = .ok i ↔ encode i = w := by
  refine ⟨encode_of_decode, ?_⟩
  rintro rfl
  exact decode_encode i

/-- Settles O3: the fields of each format's word are the operands, so the selected row is the instruction's. -/
theorem decodeOfEncodeIsTheInstruction : Obligations.DecodeOfEncodeIsTheInstruction :=
  decode_encode

/-- Settles O4: in every row of the dispatch the fields make up the word again. -/
theorem encodeOfDecodeIsTheWord : Obligations.EncodeOfDecodeIsTheWord :=
  fun _ _ => encode_of_decode

/-! ### Match and mask -/

theorem encodeR_zero (funct : BitVec 6) : encodeR funct 0 0 0 0 = funct.zeroExtend 32 := by
  apply BitVec.eq_of_toNat_eq
  rw [encodeR_toNat, BitVec.zeroExtend, BitVec.toNat_setWidth]
  simp only [BitVec.ofNat_eq_ofNat, BitVec.toNat_ofNat]
  omega

theorem encodeJ_zero (opcode : BitVec 6) : encodeJ opcode 0 = opcode.zeroExtend 32 <<< 26 := by
  apply BitVec.eq_of_toNat_eq
  rw [encodeJ_toNat, BitVec.toNat_shiftLeft, BitVec.zeroExtend, BitVec.toNat_setWidth, Nat.shiftLeft_eq]
  simp only [BitVec.ofNat_eq_ofNat, BitVec.toNat_ofNat]
  omega

section masks
variable (w : Word)

/-- The R-format mask keeps `opcode` and `funct`, and a match of these rows has opcode 0 (R66). -/
theorem masked_eq_funct_iff (funct : BitVec 6) :
    w &&& (0xFC00003F : Word) = funct.zeroExtend 32 ↔ opcodeOf w = 0 ∧ functOf w = funct := by
  constructor
  · intro h
    have hop : opcodeOf (w &&& 0xFC00003F) = opcodeOf w := by
      rw [opcodeOf, BitVec.extractLsb'_and]
      exact BitVec.and_allOnes
    have hfunct : functOf (w &&& 0xFC00003F) = functOf w := by
      rw [functOf, BitVec.extractLsb'_and]
      exact BitVec.and_allOnes
    rw [← hop, ← hfunct, h, ← encodeR_zero]
    exact ⟨opcodeOf_encodeR .., functOf_encodeR ..⟩
  · rintro ⟨hop, rfl⟩
    rw [← Laws.TableRow.encodeR_masked _ (rsOf w) (rtOf w) (rdOf w) (shamtOf w), encodeR_fields w hop]

/-- The other mask keeps `opcode` and nothing else (R66). -/
theorem masked_eq_opcode_iff (opcode : BitVec 6) :
    w &&& (0xFC000000 : Word) = opcode.zeroExtend 32 <<< 26 ↔ opcodeOf w = opcode := by
  have hmask : w &&& (0xFC000000 : Word) = encodeJ (opcodeOf w) 0 := by
    have h := Laws.TableRow.encodeJ_masked (opcodeOf w) (addressOf w)
    rw [encodeJ_fields, ← encodeJ_zero] at h
    exact h
  rw [hmask, ← encodeJ_zero]
  constructor
  · intro h
    simpa using congrArg opcodeOf h
  · rintro rfl
    rfl

/-- An R-format row matches exactly the words that its own fields encode (R66). -/
theorem masked_eq_funct_iff_encodeR (funct : BitVec 6) :
    w &&& (0xFC00003F : Word) = funct.zeroExtend 32 ↔ encodeR funct (rsOf w) (rtOf w) (rdOf w) (shamtOf w) = w :=
  (masked_eq_funct_iff w funct).trans (encodeR_fields_eq_iff w funct).symm

/-- An I-format row matches exactly the words that its own fields encode (R66). -/
theorem masked_eq_opcode_iff_encodeI (opcode : BitVec 6) :
    w &&& (0xFC000000 : Word) = opcode.zeroExtend 32 <<< 26 ↔ encodeI opcode (rsOf w) (rtOf w) (immediateOf w) = w :=
  (masked_eq_opcode_iff w opcode).trans (encodeI_fields_eq_iff w opcode).symm

/-- A J-format row matches exactly the words that its own fields encode (R66). -/
theorem masked_eq_opcode_iff_encodeJ (opcode : BitVec 6) :
    w &&& (0xFC000000 : Word) = opcode.zeroExtend 32 <<< 26 ↔ encodeJ opcode (addressOf w) = w :=
  (masked_eq_opcode_iff w opcode).trans (encodeJ_fields_eq_iff w opcode).symm

end masks

/-- Every encoding lies in its own row of the table. -/
theorem encode_tableRow (i : Instr) : encode i &&& tableMask i = tableMatch i := by
  cases i with
  | add => exact Laws.TableRow.add ..
  | and => exact Laws.TableRow.and ..
  | jr => exact Laws.TableRow.jr ..
  | syscall => exact Laws.TableRow.syscall ..
  | j => exact Laws.TableRow.j ..
  | beq => exact Laws.TableRow.beq ..
  | addi => exact Laws.TableRow.addi ..
  | andi => exact Laws.TableRow.andi ..
  | lw => exact Laws.TableRow.lw ..
  | sw => exact Laws.TableRow.sw ..
  | jal => exact Laws.TableRow.jal ..

end Sys2Proof
end

section
/-! The statements of 30_encoding.md about the digits of a word, its dispatch and its execution (R61, R66,
R67) and about the assembly lines (R73, R74). -/

namespace Sys2Proof.Machine

/-! ### Slices of digits -/

/-- A slice inside the vector is the bits the source's numbering names (R88). -/
theorem bvSlice_digitsOf {n : Nat} (x : BitVec n) {a l : Nat} (h : a + l ≤ n) :
    bvSlice (digitsOf x) a l = .ok (digitsOf (x.extractLsb' (n - a - l) l)) := by
  rw [bvSlice, if_pos (by simp; omega)]
  refine congrArg _ (List.ext_getElem (by simp; omega) fun p _ hp => ?_)
  have hp' : p < l := by simpa using hp
  simp [hp', show n - (n - a - l + l - p) = a + p by omega, show n - a - l + l - p ≤ n by omega]

/-- Settles O1: the arithmetic of each field, and the slice of the digits at the field's place. -/
theorem fieldsAreCutByPosition : Obligations.FieldsAreCutByPosition := fun w =>
  ⟨⟨opcodeOf_toNat w, bvSlice_digitsOf w (a := 0) (l := 6) (by decide)⟩,
    ⟨rsOf_toNat w, bvSlice_digitsOf w (a := 6) (l := 5) (by decide)⟩,
    ⟨rtOf_toNat w, bvSlice_digitsOf w (a := 11) (l := 5) (by decide)⟩,
    ⟨rdOf_toNat w, bvSlice_digitsOf w (a := 16) (l := 5) (by decide)⟩,
    ⟨shamtOf_toNat w, bvSlice_digitsOf w (a := 21) (l := 5) (by decide)⟩,
    ⟨functOf_toNat w, bvSlice_digitsOf w (a := 26) (l := 6) (by decide)⟩,
    ⟨immediateOf_toNat w, bvSlice_digitsOf w (a := 16) (l := 16) (by decide)⟩,
    ⟨addressOf_toNat w, bvSlice_digitsOf w (a := 6) (l := 26) (by decide)⟩⟩

/-! ### Dispatch -/

/-- A word the decoder rejects has no effect (R142). -/
theorem dispatch_of_decode_error {s : State} {e : Unrecognised} (h : decode s.ir = .error e) :
    dispatch s = .next s := by
  simp [dispatch, h, execUnrecognised, noEffect]

theorem dispatch_of_decode_ok {s : State} {i : Instr} (h : decode s.ir = .ok i) : dispatch s = exec i s := by
  simp [dispatch, h]

/-- JAL is the no-op (R143). -/
theorem exec_jal (address : BitVec 26) (s : State) : exec (.jal address) s = .next s := rfl

/-- A word in none of the ten rows of R66 is JAL's or the decoder rejects it; it has no effect. -/
theorem dispatch_of_no_row {s : State}
    (hR : s.ir &&& 0xFC00003F ∉ [0x00000020#32, 0x00000024#32, 0x00000008#32, 0x0000000C#32])
    (hIJ : s.ir &&& 0xFC000000 ∉
      [0x08000000#32, 0x10000000#32, 0x20000000#32, 0x30000000#32, 0x8C000000#32, 0xAC000000#32]) :
    dispatch s = .next s := by
  cases hdec : decode s.ir with
  | error e => exact dispatch_of_decode_error hdec
  | ok i =>
    have hrow : s.ir &&& tableMask i = tableMatch i := by
      rw [← encode_of_decode hdec]
      exact encode_tableRow i
    cases i with
    | jal address => exact (dispatch_of_decode_ok hdec).trans (exec_jal address s)
    | add | and | jr | syscall => exact absurd (hrow ▸ by simp [tableMatch]) hR
    | j | beq | addi | andi | lw | sw => exact absurd (hrow ▸ by simp [tableMatch]) hIJ

/-- Settles O2: the masks keep `opcode` and `funct`, and decode answers the instruction the word encodes. -/
theorem matchAndMaskSelectTheInstruction : Obligations.MatchAndMaskSelectTheInstruction := by
  intro w
  have hR (funct : BitVec 6) := masked_eq_funct_iff_encodeR w funct
  have hI (opcode : BitVec 6) := masked_eq_opcode_iff_encodeI w opcode
  simp only [decode_eq_ok_iff]
  refine ⟨hR 32, hR 36, hR 8, hR 12, masked_eq_opcode_iff_encodeJ w 2, hI 4, hI 8, hI 12, hI 35, hI 43, ?_⟩
  rintro hnotR hnotIJ s rfl
  exact dispatch_of_no_row hnotR hnotIJ

/-! ### Ignored fields -/

/-- No instruction's meaning depends on the fields it ignores (R67). -/
theorem exec_canonical (i : Instr) (s : State) : exec i.canonical s = exec i s := by
  cases i <;> rfl

/-- An encoding and the encoding of the canonical form decode, and mean the same in every state (R67). -/
theorem exists_decode_canonical (i : Instr) (s : State) {w v : Word} (hw : encode i = w)
    (hv : encode i.canonical = v) : ∃ i j, decode w = .ok i ∧ decode v = .ok j ∧ exec i s = exec j s :=
  ⟨i, i.canonical, decode_eq_ok_iff.mpr hw, decode_eq_ok_iff.mpr hv, (exec_canonical i s).symm⟩

/-- The canonical JR word has one field of fifteen zeros. -/
theorem encode_jr_zero (rs : RegIdx) : encode (.jr rs 0 0 0) = 0#6 ++ rs ++ 0#15 ++ 8#6 := by
  apply BitVec.eq_of_toNat_eq
  have h : (0#6 ++ rs ++ 0#15 ++ 8#6 : Word).toNat = (0#6 ++ rs ++ 0#15 ++ 8#6).toNat := rfl
  rw [encode, encodeR_toNat, h]
  simp only [append_toNat, BitVec.toNat_ofNat, BitVec.ofNat_eq_ofNat]
  omega

/-- Settles O5: each word is the encoding of an instruction, and its zeroed word that of the canonical form. -/
theorem unusedFieldsAreIgnored : Obligations.UnusedFieldsAreIgnored := fun rs rt rd shamt s =>
  ⟨exists_decode_canonical (.add rs rt rd shamt) s rfl rfl,
    exists_decode_canonical (.and rs rt rd shamt) s rfl rfl,
    exists_decode_canonical (.jr rs rt rd shamt) s rfl (encode_jr_zero rs),
    exists_decode_canonical (.syscall rs rt rd shamt) s rfl rfl⟩

/-! ### The assembly lines -/

theorem toNat_ofNat_of_isRegister {n : Nat} (h : isRegister n = true) : (BitVec.ofNat 5 n).toNat = n := by
  have hn : n ≤ 31 := by simpa [isRegister] using h
  rw [BitVec.toNat_ofNat]
  omega

theorem toInt_ofInt_of_isSigned16 {n : Int} (h : isSigned16 n = true) : (BitVec.ofInt 16 n).toInt = n := by
  have hn : -32768 ≤ n ∧ n ≤ 32767 := by simpa [isSigned16] using h
  exact BitVec.toInt_ofInt_eq_self (by decide) hn.1 (Int.lt_add_one_of_le hn.2)

theorem toNat_ofInt_of_lt {m : Nat} {n : Int} (h0 : 0 ≤ n) (h1 : n < 2 ^ m) :
    ((BitVec.ofInt m n).toNat : Int) = n := by
  rw [BitVec.toNat_ofInt, Int.toNat_of_nonneg (Int.emod_nonneg _ (by positivity))]
  exact Int.emod_eq_of_lt h0 (by exact_mod_cast h1)

theorem toNat_ofInt_of_isUnsigned16 {n : Int} (h : isUnsigned16 n = true) : ((BitVec.ofInt 16 n).toNat : Int) = n := by
  have hn : 0 ≤ n ∧ n ≤ 65535 := by simpa [isUnsigned16] using h
  exact toNat_ofInt_of_lt hn.1 (by omega)

theorem toNat_ofInt_of_isUnsigned26 {n : Int} (h : isUnsigned26 n = true) : ((BitVec.ofInt 26 n).toNat : Int) = n := by
  have hn : 0 ≤ n ∧ n < 67108864 := by simpa [isUnsigned26] using h
  exact toNat_ofInt_of_lt hn.1 hn.2

/-- The zero word is R-format with a `funct` of no row (R74). -/
theorem decode_zero : decode 0 = .error (.funct 0) := by decide

/-- Settles O6: a line's word is an encoding, which decode inverts, and each operand inside its bound is its field's
value; `nop` is the word decode rejects. -/
theorem assemblyLinesSetTheirFields : Obligations.AssemblyLinesSetTheirFields := by
  unfold Obligations.AssemblyLinesSetTheirFields
  simp only [AsmLine.wellFormed, Bool.and_eq_true, assemble, decode_encode]
  refine ⟨?add, ?and, ?jr, rfl, ?addi, ?andi, ?lw, ?sw, ?beq, ?j, trivial, ?nop⟩
  case add | and =>
    rintro rd rs rt ⟨⟨hd, hs⟩, ht⟩
    exact ⟨_, _, _, rfl, toNat_ofNat_of_isRegister hd, toNat_ofNat_of_isRegister hs, toNat_ofNat_of_isRegister ht⟩
  case jr => exact fun rs hs => ⟨_, rfl, toNat_ofNat_of_isRegister hs⟩
  case addi | lw | sw | beq =>
    rintro rt rs imm ⟨⟨ht, hs⟩, hi⟩
    exact ⟨_, _, _, rfl, toNat_ofNat_of_isRegister ht, toNat_ofNat_of_isRegister hs, toInt_ofInt_of_isSigned16 hi⟩
  case andi =>
    rintro rt rs imm ⟨⟨ht, hs⟩, hi⟩
    exact ⟨_, _, _, rfl, toNat_ofNat_of_isRegister ht, toNat_ofNat_of_isRegister hs, toNat_ofInt_of_isUnsigned16 hi⟩
  case j => exact fun imm hi => ⟨_, rfl, toNat_ofInt_of_isUnsigned26 hi⟩
  case nop => exact fun s hs => dispatch_of_decode_error (hs ▸ decode_zero)

end Sys2Proof.Machine
end

section
/-! The statements of 40_bitvector.md about the source's word type (R81 to R92): its readings, its encodings, negation
by `invert` and `incrementOne`, slices and concatenations. -/

namespace Sys2Proof.Machine

/-! ### Negation and the two readings -/

theorem digitsOf_ne_nil {n : Nat} (hn : 1 ≤ n) (x : BitVec n) : digitsOf x ≠ [] :=
  List.ne_nil_of_length_pos ((digitsOf_length x).symm ▸ hn)

/-- The reading of digits that are set is their positional value (R83). -/
theorem bvToUnsigned_of_ne_nil {v : Digits} (hv : v ≠ []) : bvToUnsigned v = .ok (digitsValue v) := by
  cases v with
  | nil => exact absurd rfl hv
  | cons d ds => rfl

theorem bvToUnsigned_digitsOf {n : Nat} (hn : 1 ≤ n) (x : BitVec n) : bvToUnsigned (digitsOf x) = .ok x.toNat := by
  rw [bvToUnsigned_of_ne_nil (digitsOf_ne_nil hn x), digitsValue_digitsOf]

/-- `invert` then `incrementOne` is two's-complement negation (R87). -/
theorem invert_then_increment_digitsOf {n : Nat} (hn : 1 ≤ n) (x : BitVec n) :
    (bvInvert (digitsOf x)).map bvIncrementOne = .ok (digitsOf (-x)) := by
  rw [bvInvert_digitsOf hn, Except.map, bvIncrementOne_digitsOf, ← BitVec.neg_eq_not_add]

/-- The first digit is the sign (R80). -/
theorem digitsOf_eq_msb_cons {n : Nat} (hn : 1 ≤ n) (x : BitVec n) : ∃ ds, digitsOf x = x.msb :: ds := by
  obtain ⟨m, rfl⟩ := Nat.exists_eq_add_of_le' hn
  exact ⟨_, by rw [digitsOf, List.range_succ_eq_map, List.map_cons, BitVec.msb]⟩

/-- With a first digit 1 the signed reading is minus the unsigned reading of the negation (R84). -/
theorem bvToSigned_of_msb {n : Nat} (hn : 1 ≤ n) {x : BitVec n} (hx : x.msb = true) :
    bvToSigned (digitsOf x) = .ok (-((-x).toNat : Int)) := by
  obtain ⟨ds, hds⟩ := digitsOf_eq_msb_cons hn x
  rw [hx] at hds
  have hsplit : bvToSigned (digitsOf x) =
      ((bvInvert (digitsOf x)).map bvIncrementOne).bind fun v => (bvToUnsigned v).map fun u => -(u : Int) := by
    rw [hds]
    rfl
  rw [hsplit, invert_then_increment_digitsOf hn, Except.bind, bvToUnsigned_digitsOf hn]
  rfl

/-- With a first digit 0 the signed reading is the unsigned one (R84). -/
theorem bvToSigned_of_not_msb {n : Nat} (hn : 1 ≤ n) {x : BitVec n} (hx : x.msb = false) :
    bvToSigned (digitsOf x) = .ok (x.toNat : Int) := by
  obtain ⟨ds, hds⟩ := digitsOf_eq_msb_cons hn x
  rw [hx] at hds
  have hsplit : bvToSigned (digitsOf x) = (bvToUnsigned (digitsOf x)).map Int.ofNat := by
    rw [hds]
    rfl
  rw [hsplit, bvToUnsigned_digitsOf hn, Except.map, Int.ofNat_eq_natCast]

/-- The signed reading is the two's-complement value, `-2^(n-1)` included (R84). -/
theorem bvToSigned_digitsOf {n : Nat} (hn : 1 ≤ n) (x : BitVec n) : bvToSigned (digitsOf x) = .ok x.toInt := by
  cases hx : x.msb with
  | false => rw [bvToSigned_of_not_msb hn hx, BitVec.toInt_eq_toNat_of_msb hx]
  | true => rw [bvToSigned_of_msb hn hx, BitVec.toInt_eq_neg_toNat_neg_of_msb_true hx]

/-- Settles O8: the positional value is the unsigned reading, and the signed one goes by the first digit. -/
theorem digitReadingsAreTheBitVectorReadings : Obligations.DigitReadingsAreTheBitVectorReadings :=
  ⟨fun _ x hn => ⟨bvToUnsigned_digitsOf hn x, bvToSigned_digitsOf hn x⟩, rfl, rfl⟩

/-- Settles O11: the negation of a word is exact but for the most negative one. -/
theorem invertThenIncrementNegates : Obligations.InvertThenIncrementNegates := by
  refine fun w => ⟨-w, invert_then_increment_digitsOf (by decide) w, fun hw => ?_, ?_, ?_⟩
  · exact BitVec.toInt_neg_of_ne_intMin hw
  · rintro rfl
    rfl
  · rintro rfl
    rfl

/-! ### Complement and carry over any digits -/

/-- Flipping every digit twice changes nothing (R85). -/
theorem bvInvert_bvInvert {v : Digits} (hv : v ≠ []) : (bvInvert v).bind bvInvert = .ok v := by
  cases v with
  | nil => exact absurd rfl hv
  | cons d ds => simp [bvInvert, Except.bind, Function.comp_def]

/-- The carry runs through all ones and leaves zeros (R86). -/
theorem rippleIncrement_replicate_true (n : Nat) :
    rippleIncrement (List.replicate n true) = List.replicate n false := by
  induction n with
  | zero => rfl
  | succ n ih => rw [List.replicate_succ, rippleIncrement, ih, List.replicate_succ]

theorem bvIncrementOne_replicate_true (n : Nat) : bvIncrementOne (List.replicate n true) = List.replicate n false := by
  rw [bvIncrementOne, List.reverse_replicate, rippleIncrement_replicate_true, List.reverse_replicate]

/-- Settles O9: `invert` is the complement and `incrementOne` the sum with one. -/
theorem invertAndIncrementActOnTheValue : Obligations.InvertAndIncrementActOnTheValue :=
  ⟨fun _ x hn => bvInvert_digitsOf hn x, fun w => ⟨~~~w, bvInvert_digitsOf (by decide) w, BitVec.toNat_not⟩,
    fun _ => bvInvert_bvInvert, rfl, fun _ => bvIncrementOne_digitsOf, bvIncrementOne_replicate_true⟩

/-! ### The encodings -/

theorem bvFromUnsigned_of_out_of_range {n : Int} (hn : n < 0 ∨ n > 2 ^ 32 - 1) :
    bvFromUnsigned n = .error .rangeError :=
  if_pos hn

/-- Settles O10: in range each encoding is the word of the number's value modulo `2^32`, which reads as the number. -/
theorem integerEncodingsAreExact : Obligations.IntegerEncodingsAreExact := by
  refine ⟨fun n h0 hn => ?_, fun _ => bvFromUnsigned_of_out_of_range,
    fun n hn => ⟨_, bvFromSigned_of_fitsSigned hn, toInt_ofInt_of_fitsSigned hn⟩,
    fun _ => bvFromSigned_of_not_fitsSigned⟩
  lift n to Nat using h0
  exact ⟨_, bvFromUnsigned_natCast (by omega), by rw [BitVec.toNat_ofNat, Nat.mod_eq_of_lt (by omega)]⟩

/-! ### Slices and concatenations -/

theorem bvSlice_of_out_of_range {v : Digits} {a l : Int} (h : a < 0 ∨ l < 0 ∨ a + l > v.length) :
    bvSlice v a l = .error .rangeError :=
  if_neg (by omega)

theorem bvSlice_append_left (a b : Digits) : bvSlice (a ++ b) 0 a.length = .ok a := by
  rw [bvSlice, if_pos (by simp), Int.toNat_zero, List.drop_zero, Int.toNat_natCast, List.take_left]

theorem bvSlice_append_right (a b : Digits) : bvSlice (a ++ b) a.length b.length = .ok b := by
  rw [bvSlice, if_pos (by simp), Int.toNat_natCast, Int.toNat_natCast, List.drop_left, List.take_length]

/-- A concatenation succeeds exactly when the digits are at most 32, and is the sequence of both (R89). -/
theorem bvConcat_eq_ok {a b c : Digits} : bvConcat a b = .ok c ↔ a.length + b.length ≤ 32 ∧ c = a ++ b := by
  unfold bvConcat
  split_ifs with h
  · exact ⟨nofun, fun ⟨hle, _⟩ => absurd h (by omega)⟩
  · exact ⟨fun hc => ⟨by omega, (Except.ok.inj hc).symm⟩, fun ⟨_, hc⟩ => congrArg _ hc.symm⟩

theorem bvConcat_of_too_long {a b : Digits} (h : a.length + b.length > 32) : bvConcat a b = .error .rangeError :=
  if_pos h

/-- The digits of an appended bit vector are those of its parts, the more significant first (R89). -/
theorem digitsOf_append {n m : Nat} (x : BitVec n) (y : BitVec m) : digitsOf (x ++ y) = digitsOf x ++ digitsOf y := by
  refine List.ext_getElem (by simp) fun p _ _ => ?_
  rw [digitsOf_getElem, BitVec.getMsbD_append]
  by_cases hp : p < n
  · rw [if_neg (not_le.mpr hp), List.getElem_append_left (by simpa using hp), digitsOf_getElem]
  · rw [if_pos (not_lt.mp hp), List.getElem_append_right (by simpa using hp), digitsOf_getElem, digitsOf_length]

/-- Slices of a concatenation give its parts back (R89). -/
theorem bvSlice_of_bvConcat {a b c : Digits} (h : bvConcat a b = .ok c) :
    bvSlice c 0 a.length = .ok a ∧ bvSlice c a.length b.length = .ok b := by
  obtain ⟨-, rfl⟩ := bvConcat_eq_ok.mp h
  exact ⟨bvSlice_append_left a b, bvSlice_append_right a b⟩

/-- Settles O12: `slice` and `concat` are the extraction and the append of bit vectors. -/
theorem sliceAndConcatMoveDigits : Obligations.SliceAndConcatMoveDigits :=
  ⟨fun _ x _ _ => bvSlice_digitsOf x, fun _ _ _ => bvSlice_of_out_of_range,
    fun _ _ x y h => bvConcat_eq_ok.mpr ⟨by simpa using h, digitsOf_append x y⟩,
    fun _ _ => bvConcat_of_too_long, fun _ _ _ => bvSlice_of_bvConcat⟩

/-! ### The laws of the type (R92) -/

theorem fromSigned_then_toSigned {n : Int} (hn : FitsSigned n) : (bvFromSigned n).bind bvToSigned = .ok n := by
  rw [bvFromSigned_of_fitsSigned hn, Except.bind, bvToSigned_digitsOf (by decide), toInt_ofInt_of_fitsSigned hn]

theorem fromUnsigned_then_toUnsigned {m : Nat} (hm : m ≤ 4294967295) :
    (bvFromUnsigned m).bind bvToUnsigned = .ok m := by
  rw [bvFromUnsigned_natCast hm, Except.bind, bvToUnsigned_digitsOf (by decide), BitVec.toNat_ofNat,
    Nat.mod_eq_of_lt (by omega)]

/-- Settles O13: an encoding's word reads as the number it encodes. -/
theorem wordTypeRoundTrips : Obligations.WordTypeRoundTrips := by
  refine ⟨fun _ => fromSigned_then_toSigned, fun n h0 hn => ?_, fun _ => bvInvert_bvInvert,
    bvIncrementOne_replicate_true, fun _ _ _ => bvSlice_of_bvConcat⟩
  lift n to Nat using h0
  exact fromUnsigned_then_toUnsigned (by omega)

end Sys2Proof.Machine
end

section
/-! The cycle and the run: the statements of 41_cycle.md about the fetch, the advance and the dispatch of one step (R100
to R104), about runs that never end (R105) and about how a run ends (R106). -/

namespace Sys2Proof.Machine

/-! ### One step -/

/-- Past the fetch check a step is the decoded instruction's action on the state after the advance (R103, R104). -/
theorem step_of_decode_ok {s : State} {i : Instr} (hr : s.run = some .running) (hf : FetchInRange s)
    (hi : decode (fetchedWord s) = .ok i) : step s = exec i (afterAdvance s) := by
  rw [step_running hr, if_pos hf]
  exact dispatch_of_decode_ok (s := afterAdvance s) hi

/-- Settles O32: the dispatch reads the word that the fetch put into `ir`. -/
theorem stepRunsTheDecodedInstruction : Obligations.StepRunsTheDecodedInstruction :=
  fun _ _ => step_of_decode_ok

/-- Outside instruction memory the fetch faults and nothing has changed (R101). -/
theorem step_of_not_fetchInRange {s : State} (hr : s.run = some .running) (hf : ¬ FetchInRange s) :
    step s = .fault (.boundsError s) := by
  rw [step_running hr, if_neg hf]

/-- No instruction writes `ir` (R29). -/
theorem ExecNext.ir_eq {i : Instr} {s t : State} (h : ExecNext i s t) : t.ir = s.ir := by
  cases h with
  | _ => rfl

/-- After a step `ir` holds the word it fetched (R101). -/
theorem step_next_ir {s t : State} (h : step s = .next t) : t.ir = fetchedWord s := by
  obtain ⟨-, -, ⟨i, -, he⟩ | ⟨-, rfl⟩⟩ := step_next_cases h
  · exact (exec_next_cases he).ir_eq
  · exact afterAdvance_ir s

/-- Past the fetch check a fault leaves the state after the fetch and the advance (R102, R158). -/
theorem step_fault_left_of_fetchInRange {s : State} {f : Fault} (h : step s = .fault f) (hf : FetchInRange s) :
    f.left = afterAdvance s := by
  obtain ⟨-, ⟨hn, -⟩ | ⟨-, i, -, he⟩⟩ := step_fault_cases h
  · exact absurd hf hn
  · exact exec_fault_left he

/-- The byte address of an existing slot leaves room for the advance below `2^31`: `IMEM_SIZE <= 2^29 - 1` (R6). -/
theorem le_of_tdiv_four_lt {a : Int} {n : Nat} (h0 : 0 ≤ a) (ha : a.tdiv 4 < n) (hn : n ≤ Config.imemSizeMax) :
    a ≤ 2147483643 := by
  have hmax : Config.imemSizeMax = 536870911 := rfl
  rw [Int.tdiv_eq_ediv_of_nonneg h0] at ha
  omega

/-- An instruction replaces `pc` by nothing but a checked target, which the word of `pc` holds unchanged (R133). -/
theorem ExecNext.fetchInRange_of_pc_ne {i : Instr} {s t : State} (h : ExecNext i s t)
    (hcap : s.imem.capacity ≤ Config.imemSizeMax) (hpc : t.pc ≠ s.pc) : FetchInRange t := by
  cases h with
  | transfer a _ h0 ha =>
    have hle := le_of_tdiv_four_lt h0 ha hcap
    have hint : (BitVec.ofInt 32 a).toInt = a := toInt_ofInt_of_fitsSigned ⟨by omega, by omega⟩
    simp only [FetchInRange, hint]
    exact ⟨h0, ha⟩
  | _ => exact absurd rfl hpc

/-- Only sequential execution leads out of instruction memory (R101). -/
theorem step_next_fetchInRange_of_pc_ne {s t : State} (h : step s = .next t) (hs : SizesInBounds s)
    (hpc : t.pc ≠ s.pc + 4) : FetchInRange t := by
  obtain ⟨-, hcap, -⟩ := hs
  obtain ⟨-, -, ⟨i, -, he⟩ | ⟨-, rfl⟩⟩ := step_next_cases h
  · exact (exec_next_cases he).fetchInRange_of_pc_ne hcap hpc
  · exact absurd (afterAdvance_pc s) hpc

/-- Settles O33: the check fails exactly outside instruction memory, the execute action keeps `ir`, and a transfer
checks its target. -/
theorem fetchChecksTheProgramCounter : Obligations.FetchChecksTheProgramCounter := by
  refine fun s hr => ⟨fun hout => ?_, fun h0 hlt => ⟨fun t ht => step_next_ir ht, fun f hf => ?_, fun t hs ht =>
    step_next_fetchInRange_of_pc_ne ht hs⟩⟩
  · exact step_of_not_fetchInRange hr fun ⟨h0, hlt⟩ => by omega
  · rw [step_fault_left_of_fetchInRange hf ⟨h0, hlt⟩]
    exact afterAdvance_ir s

/-- The advance does not wrap (R28, R102). -/
theorem toInt_pc_add_four {s : State} (hf : FetchInRange s) (hs : SizesInBounds s) :
    (s.pc + 4).toInt = s.pc.toInt + 4 := by
  obtain ⟨h0, hlt⟩ := hf
  obtain ⟨-, hcap, -⟩ := hs
  have hle := le_of_tdiv_four_lt h0 hlt hcap
  rw [BitVec.toInt_add]
  exact Int.bmod_eq_of_le (by simp; omega) (by simp; omega)

/-- Settles O34: only a transfer replaces the advanced `pc`, a fault leaves it, and there is room for the sum. -/
theorem advanceHappensInEveryStep : Obligations.AdvanceHappensInEveryStep := by
  refine fun s _ hf => ⟨fun t => step_next_pc, fun f hfault => ?_, toInt_pc_add_four hf⟩
  rw [step_fault_left_of_fetchInRange hfault hf]
  exact afterAdvance_pc s

/-! ### The first step of a run -/

/-- A step that gives a next state is the first of the run. -/
theorem runFor_succ_of_next {s t : State} (h : step s = .next t) (n : Nat) : runFor (n + 1) s = runFor n t := by
  obtain ⟨hr, -⟩ := step_next_cases h
  rw [runFor_succ n hr, h]

/-- A step that faults ends the run. -/
theorem runFor_succ_of_fault {s : State} {f : Fault} (h : step s = .fault f) (n : Nat) :
    runFor (n + 1) s = .faulted f := by
  obtain ⟨hr, -⟩ := step_fault_cases h
  rw [runFor_succ n hr, h]

/-! ### One-word loops -/

/-- A run from a fixed point of `step` stays there. -/
theorem runFor_of_step_self {t : State} (hr : t.run = some .running) (ht : step t = .next t) (n : Nat) :
    runFor n t = .unfinished t := by
  induction n with
  | zero => exact runFor_zero hr
  | succ n ih => rw [runFor_succ_of_next ht, ih]

/-- The fetch overwrites `ir`, so a step does not depend on what it held. -/
theorem step_with_ir {s : State} (hr : s.run = some .running) (hf : FetchInRange s) (w : Word) :
    step { s with ir := w } = step s := by
  rw [step_running hr, if_pos hf, step_running (s := { s with ir := w }) hr, if_pos hf]
  rfl

/-- A step that changes nothing but `ir` ends in a fixed point, so its run never ends. -/
theorem runFor_unfinished_of_step_ir {s : State} {w : Word} (h : step s = .next { s with ir := w }) (n : Nat) :
    ∃ u, runFor n s = .unfinished u := by
  obtain ⟨hr, hf, -⟩ := step_next_cases h
  have hfix : step { s with ir := w } = .next { s with ir := w } := (step_with_ir hr hf w).trans h
  cases n with
  | zero => exact ⟨s, runFor_zero hr⟩
  | succ n => exact ⟨_, (runFor_succ_of_next h n).trans (runFor_of_step_self (t := { s with ir := w }) hr hfix n)⟩

/-- A run whose next instruction transfers control to its own address never ends (R105). -/
theorem runFor_unfinished_of_transfer_to_self {s : State} {i : Instr} (hr : s.run = some .running)
    (hf : FetchInRange s) (hi : decode (fetchedWord s) = .ok i)
    (he : exec i (afterAdvance s) = finish (afterAdvance s) (transferTo s.pc.toInt (afterAdvance s))) (n : Nat) :
    ∃ u, runFor n s = .unfinished u := by
  refine runFor_unfinished_of_step_ir (w := fetchedWord s) ?_ n
  rw [step_of_decode_ok hr hf hi, he, finish_eq_next]
  exact transferTo_eq_ok.mpr ⟨hf, by rw [BitVec.ofInt_toInt]; rfl⟩

/-- `jr $0` at address 0 jumps to itself: register 0 reads zero. -/
theorem exec_jr_zero_of_pc_zero {s : State} (hpc : s.pc = 0) :
    exec (.jr 0 0 0 0) (afterAdvance s) = finish (afterAdvance s) (transferTo s.pc.toInt (afterAdvance s)) := by
  rw [hpc]
  rfl

/-- `j 0` at address 0 jumps to itself: the four bits it takes from `pc` are zero. -/
theorem exec_j_zero_of_pc_zero {s : State} (hpc : s.pc = 0) :
    exec (.j 0) (afterAdvance s) = finish (afterAdvance s) (transferTo s.pc.toInt (afterAdvance s)) := by
  have htarget : jumpTarget (afterAdvance s) 0 = s.pc := by
    rw [jumpTarget, afterAdvance_pc, hpc]
    decide
  rw [← htarget]
  rfl

/-- `beq $0, $0, -1` branches to itself wherever it stands: the displacement takes the advance back. -/
theorem exec_beq_minus_one {s : State} (hf : FetchInRange s) (hs : SizesInBounds s) :
    exec (.beq 0 0 0xFFFF) (afterAdvance s) =
      finish (afterAdvance s) (transferTo s.pc.toInt (afterAdvance s)) := by
  have hdisp : (0xFFFF : BitVec 16).toInt = -1 := by decide
  have htarget : branchTarget (afterAdvance s) 0xFFFF = s.pc.toInt := by
    rw [branchTarget, afterAdvance_pc, toInt_pc_add_four hf hs, hdisp]
    omega
  rw [← htarget]
  rfl

/-- The first fetch of a run passes its check, since instruction memory has a slot (R171). -/
theorem IsLaunch.fetchInRange {s : State} (h : IsLaunch s) : FetchInRange s := by
  obtain ⟨hpc, -, -, -, ⟨hcap, -⟩, -⟩ := h
  rw [FetchInRange, hpc]
  exact ⟨le_refl 0, Int.ofNat_lt.mpr hcap⟩

/-- Settles O53: each of the three words transfers control to its own address. -/
theorem oneWordLoopsNeverEnd : Obligations.OneWordLoopsNeverEnd := by
  refine ⟨fun s hs hw n => ?_, fun s hr hsizes hf hw n => ?_⟩
  · have ⟨hpc, _, hr, _⟩ := hs
    obtain hjr | hj := hw
    · have hdec : decode (fetchedWord s) = .ok (.jr 0 0 0 0) := by rw [hjr]; decide
      exact runFor_unfinished_of_transfer_to_self hr hs.fetchInRange hdec (exec_jr_zero_of_pc_zero hpc) n
    · have hdec : decode (fetchedWord s) = .ok (.j 0) := by rw [hj]; decide
      exact runFor_unfinished_of_transfer_to_self hr hs.fetchInRange hdec (exec_j_zero_of_pc_zero hpc) n
  · have hdec : decode (fetchedWord s) = .ok (.beq 0 0 0xFFFF) := by rw [hw]; decide
    exact runFor_unfinished_of_transfer_to_self hr hf hdec (exec_beq_minus_one hf hsizes) n

/-! ### The end of a run -/

/-- A run that has ended stays as it is; an unfinished one goes on with the given fuel. -/
def RunEnd.andThen : RunEnd → Nat → RunEnd
  | .unfinished u, m => runFor m u
  | .halted t, _ => .halted t
  | .faulted f, _ => .faulted f
  | .notStarted s, _ => .notStarted s

theorem runFor_add_of_not_running {s : State} (h : s.run ≠ some .running) (n m : Nat) :
    runFor (n + m) s = (runFor n s).andThen m := by
  match hr : s.run with
  | none => rw [runFor_notStarted _ hr, runFor_notStarted _ hr, RunEnd.andThen]
  | some .halted => rw [runFor_halted _ hr, runFor_halted _ hr, RunEnd.andThen]
  | some .running => exact absurd hr h

/-- Fuel can be spent in two parts. -/
theorem runFor_add (n m : Nat) (s : State) : runFor (n + m) s = (runFor n s).andThen m := by
  induction n generalizing s with
  | zero =>
    by_cases hr : s.run = some .running
    · rw [Nat.zero_add, runFor_zero hr, RunEnd.andThen]
    · exact runFor_add_of_not_running hr 0 m
  | succ n ih =>
    by_cases hr : s.run = some .running
    · rw [Nat.succ_add]
      cases hs : step s with
      | next t => rw [runFor_succ_of_next hs, runFor_succ_of_next hs, ih]
      | fault f => rw [runFor_succ_of_fault hs, runFor_succ_of_fault hs, RunEnd.andThen]
      | refused x => exact absurd hs (step_running_ne_refused hr x)
    · exact runFor_add_of_not_running hr (n + 1) m

/-- A run that has ended takes no further step, whatever the fuel (R106). -/
theorem runFor_add_of_ended {n : Nat} {s : State} (h : ∀ u, runFor n s ≠ .unfinished u) (m : Nat) :
    runFor (n + m) s = runFor n s := by
  rw [runFor_add]
  cases hn : runFor n s with
  | unfinished u => exact absurd hn (h u)
  | _ => rfl

/-- An unfinished run stands in a RUNNING state: with no more fuel, it is still unfinished there. -/
theorem runFor_unfinished_running {n : Nat} {s u : State} (h : runFor n s = .unfinished u) :
    u.run = some .running := by
  have h0 : runFor 0 u = .unfinished u := by
    have hadd := runFor_add n 0 s
    rw [Nat.add_zero, h] at hadd
    exact hadd.symm
  match hu : u.run with
  | none => rw [runFor_notStarted 0 hu] at h0; cases h0
  | some .halted => rw [runFor_halted 0 hu] at h0; cases h0
  | some .running => rfl

/-- A run that ends with its first step ends with that step's outcome, Halted or Fault (R106). -/
theorem runFor_one_cases {u : State} (hr : u.run = some .running) (hend : ∀ v, runFor 1 u ≠ .unfinished v) :
    (∃ t, step u = .next t ∧ t.run = some .halted ∧ runFor 1 u = .halted t) ∨
      ∃ f, step u = .fault f ∧ runFor 1 u = .faulted f := by
  cases hs : step u with
  | next t =>
    have hone := runFor_succ_of_next hs 0
    obtain hrun | hhalt := step_next_run hs
    · exact absurd (hone.trans (runFor_zero hrun)) (hend t)
    · exact .inl ⟨t, rfl, hhalt, hone.trans (runFor_halted 0 hhalt)⟩
  | fault f => exact .inr ⟨f, rfl, runFor_succ_of_fault hs 0⟩
  | refused x => exact absurd hs (step_running_ne_refused hr x)

/-- A run that has ended did so in one step, its last, from a RUNNING state that it reached (R106). -/
theorem exists_last_step {n : Nat} {s : State} (hr : s.run = some .running)
    (hend : ∀ u, runFor n s ≠ .unfinished u) :
    ∃ k u, k < n ∧ runFor k s = .unfinished u ∧
      ((∃ t, step u = .next t ∧ t.run = some .halted ∧ runFor n s = .halted t) ∨
        ∃ f, step u = .fault f ∧ runFor n s = .faulted f) := by
  induction n with
  | zero => exact absurd (runFor_zero hr) (hend s)
  | succ n ih =>
    by_cases hn : ∃ u, runFor n s = .unfinished u
    · obtain ⟨u, hu⟩ := hn
      have hone : runFor (n + 1) s = runFor 1 u := by rw [runFor_add, hu, RunEnd.andThen]
      rw [hone] at hend ⊢
      exact ⟨n, u, Nat.lt_succ_self n, hu, runFor_one_cases (runFor_unfinished_running hu) hend⟩
    · have hn' : ∀ u, runFor n s ≠ .unfinished u := fun u hu => hn ⟨u, hu⟩
      obtain ⟨k, u, hk, hlast⟩ := ih hn'
      rw [runFor_add_of_ended hn' 1]
      exact ⟨k, u, hk.trans (Nat.lt_succ_self n), hlast⟩

/-- The step that halts executes SYSCALL, which changes nothing but the run state (R140). -/
theorem step_next_halted {u t : State} (h : step u = .next t) (ht : t.run = some .halted) :
    opcodeOf (fetchedWord u) = 0 ∧ functOf (fetchedWord u) = 12 ∧ t = { afterAdvance u with run := some .halted } := by
  have hword := (step_halts_iff h).mp ht
  obtain ⟨rs, rt, rd, shamt, hdec⟩ := (decode_eq_syscall_iff _).mpr hword
  obtain ⟨hr, hf, -⟩ := step_next_cases h
  rw [step_of_decode_ok hr hf hdec] at h
  cases h
  exact ⟨hword.1, hword.2, rfl⟩

/-- Settles O54: the last step of an ended run is the halt word's or the one that raised the fault. -/
theorem runsEndAsDefined : Obligations.RunsEndAsDefined := by
  refine fun n s hr => ⟨fun t h => ?_, fun f h => ?_⟩
  · have hend : ∀ u, runFor n s ≠ .unfinished u := by simp [h]
    refine ⟨fun m => (runFor_add_of_ended hend m).trans h, ?_⟩
    obtain ⟨k, u, hk, hu, ⟨t', hstep, hhalt, ht⟩ | ⟨f, -, hf⟩⟩ := exists_last_step hr hend
    · obtain rfl : t' = t := RunEnd.halted.inj (ht.symm.trans h)
      obtain ⟨hop, hfunct, rfl⟩ := step_next_halted hstep hhalt
      exact ⟨k, u, hk, hu, hstep, rfl, hop, hfunct, rfl, rfl, fun _ => rfl, rfl⟩
    · exact nomatch hf.symm.trans h
  · have hend : ∀ u, runFor n s ≠ .unfinished u := by simp [h]
    refine ⟨fun m => (runFor_add_of_ended hend m).trans h, ?_⟩
    obtain ⟨k, u, hk, hu, ⟨t, -, -, ht⟩ | ⟨f', hstep, hf⟩⟩ := exists_last_step hr hend
    · exact nomatch ht.symm.trans h
    · obtain rfl : f' = f := RunEnd.faulted.inj (hf.symm.trans h)
      exact ⟨k, u, hk, hu, hstep⟩

end Sys2Proof.Machine
end

section
/-! Addition, conjunction and their immediate forms (42_arithmetic_logic.md R110 to R114): the checked addition is the
exact signed sum or OverflowError, and what the shared register write makes of a result. -/

namespace Sys2Proof.Machine

/-! ### The checked addition -/

/-- R110's sign comparison is the standard overflow test of two's-complement addition. -/
theorem signOverflow_add (a b : Word) : signOverflow a b (a + b) = a.saddOverflow b :=
  (BitVec.saddOverflow_eq a b).symm

/-- The sign comparison finds an overflow exactly when the exact sum is no 32-bit signed value (R110). -/
theorem signOverflow_add_iff {a b : Word} : signOverflow a b (a + b) = true ↔ ¬ FitsSigned (a.toInt + b.toInt) := by
  rw [signOverflow_add]
  simp only [BitVec.saddOverflow, FitsSigned, Bool.or_eq_true, decide_eq_true_eq]
  omega

/-- A sum in the signed range is not wrapped. -/
theorem toInt_add_of_fitsSigned {a b : Word} (h : FitsSigned (a.toInt + b.toInt)) :
    (a + b).toInt = a.toInt + b.toInt := by
  refine BitVec.toInt_add_of_not_saddOverflow fun hover => ?_
  rw [← signOverflow_add] at hover
  exact signOverflow_add_iff.mp hover h

theorem checkedAdd_of_fitsSigned {a b : Word} (h : FitsSigned (a.toInt + b.toInt)) : checkedAdd a b = .ok (a + b) :=
  checkedAdd_eq_ok.mpr ⟨Bool.eq_false_iff.mpr fun hover => signOverflow_add_iff.mp hover h, rfl⟩

theorem checkedAdd_of_not_fitsSigned {a b : Word} (h : ¬ FitsSigned (a.toInt + b.toInt)) :
    checkedAdd a b = .error .overflowError :=
  checkedAdd_eq_error.mpr ⟨signOverflow_add_iff.mpr h, rfl⟩

/-- The exact sum, cut to 32 bits, is the wrapped sum of the words. -/
theorem ofInt_toInt_add_toInt (a b : Word) : BitVec.ofInt 32 (a.toInt + b.toInt) = a + b := by
  rw [BitVec.ofInt_add, BitVec.ofInt_toInt, BitVec.ofInt_toInt]

/-- Settles O17: the source's sign comparison is true exactly when the exact sum leaves the signed range. -/
theorem checkedAddIsExact : Obligations.CheckedAddIsExact := by
  refine fun a b => ⟨fun h => ⟨a + b, checkedAdd_of_fitsSigned h, toInt_add_of_fitsSigned h⟩,
    checkedAdd_of_not_fitsSigned, ?_⟩
  rw [ofInt_toInt_add_toInt, ← signOverflow_add_iff]
  simp [signOverflow]

/-! ### Extended immediates -/

/-- Sign extension keeps the signed value (R68). -/
@[simp] theorem sext16_toInt (immediate : BitVec 16) : (sext16 immediate).toInt = immediate.toInt :=
  BitVec.toInt_signExtend_of_le (by decide)

/-- Zero extension keeps the unsigned value (R68, R114). -/
@[simp] theorem zext16_toNat (immediate : BitVec 16) : (zext16 immediate).toNat = immediate.toNat :=
  BitVec.toNat_setWidth_of_le (by decide)

/-! ### An instruction that ends in a register write -/

/-- With a destination other than 0 the instruction completes, and its result is all that changed. -/
theorem finish_writeReg {d : RegIdx} (hd : d ≠ 0) (v : Word) (s : State) :
    ∃ t, finish s (writeReg d v s) = .next t ∧ readReg t d = v ∧ OnlyRegChanges d s t :=
  ⟨_, finish_eq_next.mpr (writeReg_eq_ok.mpr ⟨hd, rfl⟩), readReg_set_same s hd v, onlyRegChanges_set s d v⟩

/-- With destination 0 the instruction ends in InvariantError and changes nothing (R155). -/
theorem finish_writeReg_zero {d : RegIdx} (hd : d = 0) (v : Word) (s : State) :
    finish s (writeReg d v s) = .fault (.invariantError s) :=
  finish_eq_fault.mpr ⟨.invariantError, writeReg_eq_error.mpr ⟨hd, rfl⟩, rfl⟩

section checkedSum
variable {a b : Word} (d : RegIdx) (s : State)

/-- A sum in the signed range goes on to the register write. -/
theorem finish_checkedAdd_of_fitsSigned (h : FitsSigned (a.toInt + b.toInt)) :
    finish s ((checkedAdd a b).bind fun r => writeReg d r s) = finish s (writeReg d (a + b) s) := by
  rw [checkedAdd_of_fitsSigned h, Except.bind]

/-- An overflow comes before any look at the destination (R111, R113, R157). -/
theorem finish_checkedAdd_of_not_fitsSigned (h : ¬ FitsSigned (a.toInt + b.toInt)) :
    finish s ((checkedAdd a b).bind fun r => writeReg d r s) = .fault (.overflowError s) :=
  finish_eq_fault.mpr ⟨.overflowError, bind_eq_error.mpr (.inl (checkedAdd_of_not_fitsSigned h)), rfl⟩

/-- What ADD and ADDI have in common: the three outcomes of storing a checked sum, in R157's order. -/
theorem finish_checkedAdd_outcomes :
    let action := finish s ((checkedAdd a b).bind fun r => writeReg d r s)
    let sum := a.toInt + b.toInt
    (FitsSigned sum → d ≠ 0 → ∃ t, action = .next t ∧ (readReg t d).toInt = sum ∧ OnlyRegChanges d s t) ∧
    (¬ FitsSigned sum → action = .fault (.overflowError s)) ∧
    (FitsSigned sum → d = 0 → action = .fault (.invariantError s)) := by
  refine ⟨fun hsum hd => ?_, finish_checkedAdd_of_not_fitsSigned d s, fun hsum hd => ?_⟩
  · obtain ⟨t, hnext, hread, honly⟩ := finish_writeReg hd (a + b) s
    refine ⟨t, (finish_checkedAdd_of_fitsSigned d s hsum).trans hnext, ?_, honly⟩
    rw [hread, toInt_add_of_fitsSigned hsum]
  · exact (finish_checkedAdd_of_fitsSigned d s hsum).trans (finish_writeReg_zero hd (a + b) s)

end checkedSum

/-! ### The four instructions -/

/-- Settles O20: the word is ADD's encoding, and ADD stores the checked sum of its two registers. -/
theorem addStoresTheExactSum : Obligations.AddStoresTheExactSum := fun rs rt rd shamt s =>
  ⟨decode_encode (.add rs rt rd shamt), finish_checkedAdd_outcomes rd s⟩

/-- Settles O21: the word is AND's encoding, and AND's only action is the register write. -/
theorem andStoresTheBitwiseAnd : Obligations.AndStoresTheBitwiseAnd := by
  refine fun rs rt rd shamt s => ⟨decode_encode (.and rs rt rd shamt), fun hrd => ?_, fun hrd =>
    finish_writeReg_zero hrd _ s⟩
  obtain ⟨t, hnext, hread, honly⟩ := finish_writeReg hrd (readReg s rs &&& readReg s rt) s
  refine ⟨t, hnext, fun b => ?_, honly⟩
  rw [hread, BitVec.getLsbD_and]

/-- Settles O22: the word is ADDI's encoding, and ADDI stores the checked sum of `x[rs]` and the immediate's value. -/
theorem addiStoresTheExactSum : Obligations.AddiStoresTheExactSum := by
  refine fun rs rt immediate s => ⟨decode_encode (.addi rs rt immediate), ?_⟩
  rw [← sext16_toInt immediate]
  exact finish_checkedAdd_outcomes rt s

/-- The mask acts on the unsigned values as it stands (R114). -/
theorem toNat_and_zext16 (w : Word) (immediate : BitVec 16) :
    (w &&& zext16 immediate).toNat = w.toNat &&& immediate.toNat := by
  rw [BitVec.toNat_and, zext16_toNat]

/-- Settles O23: the zero-extended mask has the immediate's value, and a conjunction is at most its mask. -/
theorem andiMasksTheLowHalf : Obligations.AndiMasksTheLowHalf := by
  refine fun rs rt immediate s => ⟨decode_encode (.andi rs rt immediate), fun hrt => ?_, fun hrt =>
    finish_writeReg_zero hrt _ s⟩
  obtain ⟨t, hnext, hread, honly⟩ := finish_writeReg hrt (readReg s rs &&& zext16 immediate) s
  have hvalue : (readReg t rt).toNat = (readReg s rs).toNat &&& immediate.toNat := by
    rw [hread, toNat_and_zext16]
  refine ⟨t, hnext, hvalue, ?_, honly⟩
  calc (readReg t rt).toNat
      = (readReg s rs).toNat &&& immediate.toNat := hvalue
    _ ≤ immediate.toNat := Nat.and_le_right
    _ ≤ 65535 := Nat.le_of_lt_succ immediate.isLt

end Sys2Proof.Machine
end

section
/-! Loads and stores (43_load_store.md R120 to R122): the effective address is the exact sum of the base and the
displacement, checked for overflow and then for its slot, and LW and SW fault as it does before they do anything. -/

namespace Sys2Proof.Machine

/-! ### The effective address -/

section effectiveAddress
variable {s : State} {rs : RegIdx} {immediate : BitVec 16}

/-- A sum outside the signed range is the overflow of R110, before any look at data memory (R122, R157). -/
theorem effectiveAddress_of_not_fitsSigned (h : ¬ FitsSigned ((readReg s rs).toInt + immediate.toInt)) :
    effectiveAddress s rs immediate = .error .overflowError := by
  rw [← sext16_toInt immediate] at h
  exact bind_eq_error.mpr (.inl (checkedAdd_of_not_fitsSigned h))

/-- A sum in the signed range goes on to the bounds test as a word that has the sum's value. -/
theorem exists_effectiveAddress_eq_checkSlot (h : FitsSigned ((readReg s rs).toInt + immediate.toInt)) :
    ∃ e : Word, effectiveAddress s rs immediate = checkSlot s.dmem e ∧
      e.toInt = (readReg s rs).toInt + immediate.toInt := by
  rw [← sext16_toInt immediate] at h ⊢
  refine ⟨readReg s rs + sext16 immediate, ?_, toInt_add_of_fitsSigned h⟩
  rw [effectiveAddress, checkedAdd_of_fitsSigned h, Except.bind]

/-- A sum that is the index of no slot is out of bounds. -/
theorem effectiveAddress_of_not_hasSlot (h : FitsSigned ((readReg s rs).toInt + immediate.toInt))
    (hslot : ¬ s.dmem.HasSlot ((readReg s rs).toInt + immediate.toInt)) :
    effectiveAddress s rs immediate = .error .boundsError := by
  obtain ⟨e, hea, he⟩ := exists_effectiveAddress_eq_checkSlot h
  rw [← he] at hslot
  exact hea.trans (checkSlot_eq_error.mpr ⟨hslot, rfl⟩)

/-- A sum that is the index of a slot is the address itself: not divided, not aligned (R43, R45). -/
theorem effectiveAddress_of_hasSlot (h : FitsSigned ((readReg s rs).toInt + immediate.toInt))
    (hslot : s.dmem.HasSlot ((readReg s rs).toInt + immediate.toInt)) :
    effectiveAddress s rs immediate = .ok ((readReg s rs).toInt + immediate.toInt).toNat := by
  obtain ⟨e, hea, he⟩ := exists_effectiveAddress_eq_checkSlot h
  rw [← he] at hslot ⊢
  refine hea.trans (checkSlot_eq_ok.mpr ⟨hslot, ?_⟩)
  rw [BitVec.toInt_eq_toNat_of_msb (msb_eq_false_of_nonneg hslot.1), Int.toNat_natCast]

end effectiveAddress

/-- Settles O18: the checked sum is exact or overflows, and the bounds test then decides on its value. -/
theorem effectiveAddressIsCheckedThenBounded : Obligations.EffectiveAddressIsCheckedThenBounded :=
  fun _ _ _ => ⟨effectiveAddress_of_not_fitsSigned, effectiveAddress_of_not_hasSlot, fun h hslot =>
    ⟨_, effectiveAddress_of_hasSlot h hslot, Int.toNat_of_nonneg hslot.1⟩⟩

/-! ### The two instructions -/

/-- A refused address ends the instruction before its access, and nothing is changed (R120, R121, R158). -/
theorem finish_effectiveAddress_of_error {s : State} {rs : RegIdx} {immediate : BitVec 16} {k : ErrorKind}
    (h : effectiveAddress s rs immediate = .error k) (access : Nat → Except ErrorKind State) :
    finish s ((effectiveAddress s rs immediate).bind access) = .fault (faultOf k s) :=
  finish_eq_fault.mpr ⟨k, bind_eq_error.mpr (.inl h), rfl⟩

/-- LW into register 0 faults after the address was accepted (R120). -/
theorem exec_lw_zero_of_effectiveAddress {s : State} {rs rt : RegIdx} {immediate : BitVec 16} {ea : Nat}
    (h : effectiveAddress s rs immediate = .ok ea) (hrt : rt = 0) :
    exec (.lw rs rt immediate) s = .fault (.invariantError s) :=
  finish_eq_fault.mpr ⟨.invariantError, bind_eq_error.mpr (.inr ⟨ea, h, writeReg_eq_error.mpr ⟨hrt, rfl⟩⟩), rfl⟩

/-- Settles O24: the word is LW's encoding; LW faults as its address does, and then only by its register write. -/
theorem lwLoadsTheAddressedSlot : Obligations.LwLoadsTheAddressedSlot := by
  refine fun rs rt immediate s => ⟨decode_encode (.lw rs rt immediate), fun h hslot hrt => ?_, fun h => ?_,
    fun h hslot => ?_, fun h hslot hrt => ?_⟩
  · exact ⟨_, exec_lw_of_effectiveAddress (effectiveAddress_of_hasSlot h hslot) hrt, readReg_set_same s hrt _,
      onlyRegChanges_set s rt _⟩
  · exact finish_effectiveAddress_of_error (effectiveAddress_of_not_fitsSigned h) _
  · exact finish_effectiveAddress_of_error (effectiveAddress_of_not_hasSlot h hslot) _
  · exact exec_lw_zero_of_effectiveAddress (effectiveAddress_of_hasSlot h hslot) hrt

/-- Settles O25: the word is SW's encoding; SW faults as its address does, and otherwise only writes that slot. -/
theorem swStoresIntoTheAddressedSlot : Obligations.SwStoresIntoTheAddressedSlot := by
  refine fun rs rt immediate s => ⟨decode_encode (.sw rs rt immediate), effectiveAddress_of_hasSlot,
    fun ea hea => ?_, fun h => ?_, fun h hslot => ?_⟩
  · exact ⟨_, exec_sw_of_effectiveAddress hea rt, read_write_same s.dmem ea _, onlySlotChanges_write s ea _⟩
  · exact finish_effectiveAddress_of_error (effectiveAddress_of_not_fitsSigned h) _
  · exact finish_effectiveAddress_of_error (effectiveAddress_of_not_hasSlot h hslot) _

end Sys2Proof.Machine
end

section
/-! Control transfer (44_control_transfer.md R130 to R135): a target is accepted exactly when it selects an existing
slot, BEQ, J and JR are that check of their own target, and every step keeps the machine's invariant, so the program
counter of a run stays in its range. -/

namespace Sys2Proof.Machine

/-! ### The target check -/

/-- R133's two readings of the check: a slot number below `IMEM_SIZE`, or a byte address up to `4 * IMEM_SIZE - 1`. -/
theorem targetInImem_iff {s : State} {a : Int} :
    TargetInImem s a ↔ 0 ≤ a ∧ a.tdiv 4 < s.imem.capacity := by
  refine and_congr_right fun h0 => ?_
  rw [Int.tdiv_eq_ediv_of_nonneg h0]
  omega

section transfer
variable {s : State} {a : Int}

theorem checkTarget_of_targetInImem (h : TargetInImem s a) : checkTarget s a = .ok () := by
  obtain ⟨h0, hlt⟩ := targetInImem_iff.mp h
  exact if_neg (by omega)

theorem checkTarget_of_not_targetInImem (h : ¬ TargetInImem s a) : checkTarget s a = .error .boundsError := by
  rw [targetInImem_iff] at h
  exact if_pos (by omega)

/-- An accepted transfer puts its target into `pc` and changes nothing else (R133). -/
theorem exists_transferTo_of_targetInImem (h : TargetInImem s a) :
    ∃ t, transferTo a s = .ok t ∧ t.pc = BitVec.ofInt 32 a ∧ OnlyPcChanges s t :=
  ⟨_, transferTo_eq_ok.mpr ⟨targetInImem_iff.mp h, rfl⟩, rfl, fun _ => rfl, rfl, rfl, ⟨rfl, fun _ => rfl⟩,
    rfl, fun _ => rfl⟩

theorem transferTo_of_not_targetInImem (h : ¬ TargetInImem s a) : transferTo a s = .error .boundsError :=
  transferTo_eq_error.mpr ⟨targetInImem_iff.not.mp h, rfl⟩

/-- An instruction that ends in an accepted transfer completes with that transfer's effect. -/
theorem finish_transferTo_of_targetInImem (h : TargetInImem s a) :
    ∃ t, finish s (transferTo a s) = .next t ∧ t.pc = BitVec.ofInt 32 a ∧ OnlyPcChanges s t := by
  obtain ⟨t, ht, hpc, honly⟩ := exists_transferTo_of_targetInImem h
  exact ⟨t, finish_eq_next.mpr ht, hpc, honly⟩

/-- An instruction that ends in a refused transfer ends in BoundsError and changes nothing (R152, R158). -/
theorem finish_transferTo_of_not_targetInImem (h : ¬ TargetInImem s a) :
    finish s (transferTo a s) = .fault (.boundsError s) :=
  finish_eq_fault.mpr ⟨.boundsError, transferTo_of_not_targetInImem h, rfl⟩

/-- A transfer to a word's signed value puts that word into `pc`, all 32 bits. -/
theorem finish_transferTo_toInt {w : Word} (h : TargetInImem s w.toInt) :
    ∃ t, finish s (transferTo w.toInt s) = .next t ∧ t.pc = w ∧ OnlyPcChanges s t := by
  obtain ⟨t, hnext, hpc, honly⟩ := finish_transferTo_of_targetInImem h
  exact ⟨t, hnext, hpc.trans BitVec.ofInt_toInt, honly⟩

end transfer

/-- Settles O19: the check is R133's range in its other reading, and the transfer is refused as its check is. -/
theorem targetCheckAcceptsExistingSlots : Obligations.TargetCheckAcceptsExistingSlots := fun _ _ =>
  ⟨fun h => ⟨checkTarget_of_targetInImem h, exists_transferTo_of_targetInImem h⟩,
    fun h => ⟨checkTarget_of_not_targetInImem h, transferTo_of_not_targetInImem h⟩⟩

/-! ### The three instructions -/

/-- A branch on equal registers is the transfer to its target (R130). -/
theorem exec_beq_of_eq {s : State} {rs rt : RegIdx} (h : readReg s rs = readReg s rt) (immediate : BitVec 16) :
    exec (.beq rs rt immediate) s = finish s (transferTo (branchTarget s immediate) s) :=
  congrArg (finish s) (if_pos h)

/-- A branch on unequal registers does nothing (R130). -/
theorem exec_beq_of_ne {s : State} {rs rt : RegIdx} (h : readReg s rs ≠ readReg s rt) (immediate : BitVec 16) :
    exec (.beq rs rt immediate) s = .next s :=
  congrArg (finish s) (if_neg h)

/-- Settles O26: registers are equal exactly when their signed values are, and a taken branch is a transfer. -/
theorem beqBranchesWhenEqual : Obligations.BeqBranchesWhenEqual := by
  refine fun rs rt immediate s => ⟨decode_encode (.beq rs rt immediate), fun hne => ?_, fun heq hin => ?_,
    fun heq hout => ?_⟩
  · exact exec_beq_of_ne (mt (congrArg BitVec.toInt) hne) immediate
  · rw [exec_beq_of_eq (BitVec.eq_of_toInt_eq heq)]
    exact finish_transferTo_of_targetInImem hin
  · rw [exec_beq_of_eq (BitVec.eq_of_toInt_eq heq)]
    exact finish_transferTo_of_not_targetInImem hout

/-- J's target as a number: the top four bits of `pc`, then the address field, then two zero bits (R131). -/
theorem jumpTarget_toNat (s : State) (address : BitVec 26) :
    (jumpTarget s address).toNat = s.pc.toNat / 2 ^ 28 * 2 ^ 28 + address.toNat * 4 := by
  have hpc := s.pc.isLt
  rw [jumpTarget, append_toNat, append_toNat, BitVec.extractLsb'_toNat, Nat.shiftRight_eq_div_pow,
    BitVec.toNat_ofNat]
  omega

/-- A word, read as a signed value, selects a slot exactly when its unsigned value does and its sign is 0. -/
theorem targetInImem_toInt_iff {s : State} {w : Word} :
    TargetInImem s w.toInt ↔ w.toNat < 2 ^ 31 ∧ w.toNat < 4 * s.imem.capacity := by
  have hlt := w.isLt
  rw [TargetInImem, BitVec.toInt_eq_toNat_cond]
  split <;> omega

/-- Settles O27: J is the transfer to its target's word, whose signed value the check reads. -/
theorem jumpReplacesTheLow28Bits : Obligations.JumpReplacesTheLow28Bits := by
  intro address s
  rw [← jumpTarget_toNat s address]
  refine ⟨decode_encode (.j address), fun hlt hcap => ?_, fun hout => ?_⟩
  · obtain ⟨t, hnext, hpc, honly⟩ := finish_transferTo_toInt (targetInImem_toInt_iff.mpr ⟨hlt, hcap⟩)
    exact ⟨t, hnext, congrArg BitVec.toNat hpc, honly⟩
  · exact finish_transferTo_of_not_targetInImem (targetInImem_toInt_iff.not.mpr hout)

/-- Settles O28: JR is the transfer to the signed value of its register's word. -/
theorem jrCopiesTheRegister : Obligations.JrCopiesTheRegister := fun rs rt rd shamt _ =>
  ⟨decode_encode (.jr rs rt rd shamt), finish_transferTo_toInt, finish_transferTo_of_not_targetInImem⟩

/-! ### The invariant -/

/-- What the fetch and the advance keep, and every instruction keeps, every step keeps. -/
theorem step_next_induction {P : State → Prop} (hadvance : ∀ s, P s → P (afterAdvance s))
    (hexec : ∀ {i s t}, ExecNext i s t → P s → P t) {s t : State} (h : step s = .next t) (hs : P s) : P t := by
  obtain ⟨-, -, ⟨i, -, he⟩ | ⟨-, rfl⟩⟩ := step_next_cases h
  · exact hexec (exec_next_cases he) (hadvance s hs)
  · exact hadvance s hs

/-- Only a store writes a memory, at an address inside its capacity. -/
theorem ExecNext.memoriesCanonical {i : Instr} {s t : State} (h : ExecNext i s t) (hs : MemoriesCanonical s) :
    MemoriesCanonical t := by
  obtain ⟨himem, hdmem⟩ := hs
  cases h with
  | store rs rt immediate ea _ hea => exact ⟨himem, write_wf hdmem (effectiveAddress_lt hea) _⟩
  | _ => exact ⟨himem, hdmem⟩

/-- A register write never goes to the stored slot 0 (R23). -/
theorem ExecNext.zeroSlotHoldsZero {i : Instr} {s t : State} (h : ExecNext i s t) (hs : ZeroSlotHoldsZero s) :
    ZeroSlotHoldsZero t := by
  cases h with
  | register d v _ hd => exact hs.set hd v
  | _ => exact hs

/-- The fetch check is the target check of `pc` (R101, R133). -/
theorem targetInImem_pc {s : State} (h : FetchInRange s) : TargetInImem s s.pc.toInt :=
  targetInImem_iff.mpr h

/-- After a step `pc` is four past an existing slot's address, or selects an existing slot itself (R135). -/
theorem step_next_pcInRange {s t : State} (h : step s = .next t) (hs : SizesInBounds s) : PcInRange t := by
  by_cases hpc : t.pc = s.pc + 4
  · obtain ⟨-, hf, -⟩ := step_next_cases h
    obtain ⟨h0, hle⟩ := targetInImem_pc hf
    rw [PcInRange, hpc, toInt_pc_add_four hf hs, (step_next_capacity h).1]
    omega
  · obtain ⟨h0, hle⟩ := targetInImem_pc (step_next_fetchInRange_of_pc_ne h hs hpc)
    exact ⟨h0, by omega⟩

theorem step_next_sizesInBounds {s t : State} (h : step s = .next t) (hs : SizesInBounds s) : SizesInBounds t := by
  obtain ⟨himem, hdmem⟩ := step_next_capacity h
  rwa [SizesInBounds, himem, hdmem]

/-- Every step keeps the four parts of the invariant; R135's range needs only the sizes of the state before. -/
theorem Inv.step_next {s t : State} (hs : Inv s) (h : step s = .next t) : Inv t := by
  obtain ⟨hsizes, hmems, hzero, -⟩ := hs
  exact ⟨step_next_sizesInBounds h hsizes,
    step_next_induction (fun _ hu => hu) ExecNext.memoriesCanonical h hmems,
    step_next_induction (fun _ hu => hu) ExecNext.zeroSlotHoldsZero h hzero,
    step_next_pcInRange h hsizes⟩

/-- Settles O44: the memories and the zero slot instruction by instruction, the sizes and `pc` for the step as a
whole. -/
theorem stepKeepsTheInvariant : Obligations.StepKeepsTheInvariant :=
  fun _ _ => Inv.step_next

/-! ### The program counter of a run -/

/-- A launch state has the invariant: its `pc` is zero (R171). -/
theorem IsLaunch.inv {s : State} (h : IsLaunch s) : Inv s := by
  obtain ⟨hpc, -, -, hzero, hsizes, hmems⟩ := h
  refine ⟨hsizes, hmems, hzero, ?_⟩
  rw [PcInRange, hpc, BitVec.ofNat_eq_ofNat, BitVec.toInt_zero]
  omega

/-- Every state of a run has the invariant. -/
theorem Reachable.inv {s : State} (h : Reachable s) : Inv s := by
  induction h with
  | launch hlaunch => exact hlaunch.inv
  | step _ hstep ih => exact ih.step_next hstep

theorem PcAligned.pc_le {s : State} (ha : PcAligned s) (hs : PcInRange s) : s.pc.toInt ≤ 4 * s.imem.capacity := by
  obtain ⟨k, hk⟩ := ha
  obtain ⟨-, hle⟩ := hs
  omega

/-- Bit 31 of `pc_inc` is 0, since the advance does not wrap, so its four top bits are at most 7 (R135). -/
theorem pc_add_four_top_bits {s : State} (hf : FetchInRange s) (hs : SizesInBounds s) :
    (s.pc + 4).msb = false ∧ (s.pc + 4).toNat / 2 ^ 28 ≤ 7 := by
  have hnonneg : 0 ≤ (s.pc + 4).toInt := by
    rw [toInt_pc_add_four hf hs]
    exact Int.add_nonneg hf.1 (by decide)
  have hmsb := msb_eq_false_of_nonneg hnonneg
  have hlt := BitVec.toNat_lt_of_msb_false hmsb
  exact ⟨hmsb, by omega⟩

/-! ### Alignment -/

/-- Cutting an integer to a word keeps its two low bits. -/
theorem four_dvd_toInt_ofInt {a : Int} (h : 4 ∣ a) : 4 ∣ (BitVec.ofInt 32 a).toInt := by
  have hsub : (4 : Int) ∣ a.bmod (2 ^ 32) - a := dvd_trans (by decide) Int.dvd_bmod_sub_self
  rw [BitVec.toInt_ofInt]
  exact (Int.dvd_iff_dvd_of_dvd_sub hsub).mpr h

/-- The advance adds a multiple of 4, wrapped or not. -/
theorem PcAligned.afterAdvance {s : State} (h : PcAligned s) : PcAligned (afterAdvance s) := by
  rw [PcAligned, afterAdvance_pc, ← ofInt_toInt_add_toInt]
  exact four_dvd_toInt_ofInt (dvd_add h (by decide))

theorem four_dvd_branchTarget {s : State} (h : PcAligned s) (immediate : BitVec 16) :
    4 ∣ branchTarget s immediate :=
  dvd_add h (Int.dvd_mul_left _ _)

/-- J's two appended zero bits make its target a multiple of 4, whatever `pc` holds (R131). -/
theorem four_dvd_jumpTarget (s : State) (address : BitVec 26) : 4 ∣ (jumpTarget s address).toInt := by
  rw [BitVec.toInt_eq_toNat_cond, jumpTarget_toNat]
  split <;> omega

theorem pcAligned_of_transferTo {a : Int} {s t : State} (h : transferTo a s = .ok t) (ha : 4 ∣ a) : PcAligned t := by
  obtain ⟨-, rfl⟩ := transferTo_eq_ok.mp h
  exact four_dvd_toInt_ofInt ha

/-- Of the instructions, JR alone can make an aligned `pc` misaligned. -/
theorem exec_next_pcAligned {i : Instr} {s t : State} (h : exec i s = .next t) (hs : PcAligned s)
    (hjr : ∀ rs rt rd shamt, i = .jr rs rt rd shamt → 4 ∣ (readReg s rs).toInt) : PcAligned t := by
  cases i with
  | jr rs rt rd shamt => exact pcAligned_of_transferTo (finish_eq_next.mp h) (hjr rs rt rd shamt rfl)
  | j address => exact pcAligned_of_transferTo (finish_eq_next.mp h) (four_dvd_jumpTarget s address)
  | beq rs rt immediate =>
    by_cases heq : readReg s rs = readReg s rt
    · rw [exec_beq_of_eq heq] at h
      exact pcAligned_of_transferTo (finish_eq_next.mp h) (four_dvd_branchTarget hs immediate)
    · rw [exec_beq_of_ne heq] at h
      cases h
      exact hs
  | _ =>
    rw [PcAligned, (exec_next_cases h).pc_eq rfl]
    exact hs

/-- A step from an aligned `pc` leaves it aligned, unless it runs JR on a register that is no multiple of 4 (R135). -/
theorem PcAligned.step_next {s t : State} (hs : PcAligned s) (h : step s = .next t)
    (hjr : ∀ rs rt rd shamt, decode (fetchedWord s) = .ok (.jr rs rt rd shamt) → 4 ∣ (readReg s rs).toInt) :
    PcAligned t := by
  obtain ⟨-, -, ⟨i, hi, he⟩ | ⟨-, rfl⟩⟩ := step_next_cases h
  · exact exec_next_pcAligned he hs.afterAdvance fun rs rt rd shamt e => hjr rs rt rd shamt (e ▸ hi)
  · exact hs.afterAdvance

/-- Settles O46: every state of a run has the invariant, whose range for `pc` gives the bounds; alignment is kept step
by step. -/
theorem programCounterStaysInRange : Obligations.ProgramCounterStaysInRange := by
  refine ⟨fun s hs => ?_, fun s hs => ?_, fun _ _ => PcAligned.step_next⟩
  · obtain ⟨hsizes, -, -, hpc⟩ := hs.inv
    exact ⟨hpc, fun ha => ha.pc_le hpc, fun hf => pc_add_four_top_bits hf hsizes⟩
  · obtain ⟨hpc, -⟩ := hs
    rw [PcAligned, hpc]
    decide

end Sys2Proof.Machine
end

section
/-! The halt, the words of no row and the unsupported jump-and-link: the statements of 45_system_and_unrecognized.md
(R140, R142, R143). -/

namespace Sys2Proof.Machine

/-! ### The halt -/

/-- SYSCALL halts, whatever its ignored fields hold (R140). -/
theorem exec_syscall (rs rt rd shamt : RegIdx) (s : State) :
    exec (.syscall rs rt rd shamt) s = .next { s with run := some .halted } := rfl

theorem onlyRunStateChanges_run (s : State) (r : Option RunState) : OnlyRunStateChanges s { s with run := r } :=
  ⟨fun _ => rfl, rfl, rfl, ⟨rfl, fun _ => rfl⟩, rfl, fun _ => rfl⟩

/-- The step of the halt word is the fetch, the advance and the change of the run state (R140). -/
theorem step_of_halt_word {s : State} (hr : s.run = some .running) (hf : FetchInRange s)
    (hop : opcodeOf (fetchedWord s) = 0) (hfunct : functOf (fetchedWord s) = 12) :
    step s = .next { afterAdvance s with run := some .halted } := by
  obtain ⟨rs, rt, rd, shamt, hi⟩ := (decode_eq_syscall_iff (fetchedWord s)).mpr ⟨hop, hfunct⟩
  rw [step_of_decode_ok hr hf hi, exec_syscall]

/-- Settles O29: the word is SYSCALL's encoding, its step sets the run state after the advance, and a HALTED core is
stuck. -/
theorem syscallHalts : Obligations.SyscallHalts := by
  refine ⟨fun rs rt rd shamt s => ⟨decode_encode (.syscall rs rt rd shamt), _, exec_syscall rs rt rd shamt s, rfl,
    onlyRunStateChanges_run s _⟩, fun s hr hf hop hfunct => ?_⟩
  obtain ⟨hregs, hpc, hir, himem, hdmem⟩ := onlyRunStateChanges_run (afterAdvance s) (some .halted)
  exact ⟨_, step_of_halt_word hr hf hop hfunct, rfl, hir, hpc, hregs, himem, hdmem,
    step_stuck_of_not_running (by simp)⟩

/-! ### The words of no row -/

/-- A word with none of the seven opcodes, or with opcode 0 and none of the four functs, has no effect: the decoder
rejects it, unless it is JAL's (R142). -/
theorem dispatch_of_unrecognised {s : State}
    (h : opcodeOf s.ir ∉ [0#6, 2#6, 4#6, 8#6, 12#6, 35#6, 43#6] ∨
      (opcodeOf s.ir = 0 ∧ functOf s.ir ∉ [8#6, 12#6, 32#6, 36#6])) : dispatch s = .next s := by
  cases hdec : decode s.ir with
  | error e => exact dispatch_of_decode_error hdec
  | ok i =>
    rw [← encode_of_decode hdec] at h
    cases i with
    | jal address => exact (dispatch_of_decode_ok hdec).trans (exec_jal address s)
    | add | and | jr | syscall | j | beq | addi | andi | lw | sw => simp [encode] at h

/-- Settles O30: past the fetch check the step is the dispatch on the fetched word, which has no effect. -/
theorem unrecognisedWordIsNoOp : Obligations.UnrecognisedWordIsNoOp := by
  intro s hr hf h
  rw [step_running hr, if_pos hf]
  exact dispatch_of_unrecognised (s := afterAdvance s) h

/-! ### Jump-and-link -/

/-- Settles O31: JAL's effect is the empty one, and the step of its word, as of JALR's, is the no-op of R142. -/
theorem jumpAndLinkIsNoOp : Obligations.JumpAndLinkIsNoOp := by
  refine ⟨fun address s => ⟨decode_encode (.jal address), s, exec_jal address s, rfl⟩, fun s hr hf hw => ?_⟩
  have hstep : step s = .next (afterAdvance s) := by
    refine unrecognisedWordIsNoOp s hr hf ?_
    obtain hjal | ⟨hop, hjalr⟩ := hw
    · exact .inl (by simp [hjal])
    · exact .inr ⟨hop, by simp [hjalr]⟩
  exact ⟨_, hstep, afterAdvance_pc s, afterAdvance_ir s, hr, fun _ => rfl, ⟨rfl, fun _ => rfl⟩, rfl, fun _ => rfl⟩

end Sys2Proof.Machine
end

section
/-! Exceptions (60_exceptions.md R156 to R158): which faults an instruction raises, which comes first when several
conditions hold, and the state that a fault leaves. -/

namespace Sys2Proof.Machine

/-! ### The kinds of an instruction's faults -/

/-- Settles O38: row by row of R156's table, the checks an instruction makes raise only the kinds listed there. -/
theorem instructionsRaiseOnlyTheirFaults : Obligations.InstructionsRaiseOnlyTheirFaults :=
  fun _ _ _ => exec_fault_mayRaise

/-! ### Fault priority -/

/-- The checked sum is the first thing an instruction that has one looks at (R157). -/
theorem exec_of_not_fitsSigned_checkedSum {i : Instr} {s : State} {n : Int} (hn : checkedSum s i = some n)
    (hsum : ¬ FitsSigned n) : exec i s = .fault (.overflowError s) := by
  cases i with
  | add rs rt rd shamt =>
    cases hn
    exact finish_checkedAdd_of_not_fitsSigned rd s hsum
  | addi rs rt immediate =>
    cases hn
    rw [← sext16_toInt immediate] at hsum
    exact finish_checkedAdd_of_not_fitsSigned rt s hsum
  | lw | sw =>
    cases hn
    exact finish_effectiveAddress_of_error (effectiveAddress_of_not_fitsSigned hsum) _
  | and | andi | beq | j | jr | jal | syscall => cases hn

/-- The bounds test of a data address comes next, before the register write of LW (R157). -/
theorem exec_of_not_hasSlot_dataAddress {i : Instr} {s : State} {a : Int} (ha : dataAddress s i = some a)
    (hsum : FitsSigned a) (hslot : ¬ s.dmem.HasSlot a) : exec i s = .fault (.boundsError s) := by
  cases i with
  | lw | sw =>
    cases ha
    exact finish_effectiveAddress_of_error (effectiveAddress_of_not_hasSlot hsum hslot) _
  | add | addi | and | andi | beq | j | jr | jal | syscall => cases ha

/-- The register write is the last action, and refuses destination 0 when every check before it passed (R157). -/
theorem exec_of_destination_zero {i : Instr} {s : State} (hd : destination i = some 0)
    (hsum : ∀ n, checkedSum s i = some n → FitsSigned n)
    (hslot : ∀ a, dataAddress s i = some a → s.dmem.HasSlot a) : exec i s = .fault (.invariantError s) := by
  cases i with
  | add rs rt rd shamt =>
    obtain rfl : rd = 0 := Option.some.inj hd
    exact (finish_checkedAdd_of_fitsSigned 0 s (hsum _ rfl)).trans (finish_writeReg_zero rfl _ s)
  | addi rs rt immediate =>
    obtain rfl : rt = 0 := Option.some.inj hd
    have hfits : FitsSigned ((readReg s rs).toInt + (sext16 immediate).toInt) := by
      rw [sext16_toInt]
      exact hsum _ rfl
    exact (finish_checkedAdd_of_fitsSigned 0 s hfits).trans (finish_writeReg_zero rfl _ s)
  | and | andi => exact finish_writeReg_zero (Option.some.inj hd) _ s
  | lw rs rt immediate =>
    have hea := effectiveAddress_of_hasSlot (hsum _ rfl) (hslot _ rfl)
    exact exec_lw_zero_of_effectiveAddress hea (Option.some.inj hd)
  | sw | beq | j | jr | jal | syscall => cases hd

/-- Settles O39: the fetch check precedes the dispatch, and each check of an instruction precedes the next one. -/
theorem faultPriorityOrder : Obligations.FaultPriorityOrder :=
  ⟨fun _ => step_of_not_fetchInRange, fun _ _ => ⟨fun _ => exec_of_not_fitsSigned_checkedSum,
    fun _ => exec_of_not_hasSlot_dataAddress, exec_of_destination_zero⟩⟩

/-! ### The state a fault leaves -/

/-- The fetch check tells the two states a fault can leave apart (R158). -/
theorem step_fault_left_cases {s : State} {f : Fault} (h : step s = .fault f) :
    (¬ FetchInRange s ∧ f.left = s) ∨ (FetchInRange s ∧ f.left = afterAdvance s) := by
  obtain ⟨-, ⟨hf, rfl⟩ | ⟨hf, i, -, he⟩⟩ := step_fault_cases h
  · exact .inl ⟨hf, rfl⟩
  · exact .inr ⟨hf, exec_fault_left he⟩

/-- A run that stands in a state whose step faults ends with that fault (R158). -/
theorem runFor_succ_of_unfinished_of_fault {n : Nat} {s u : State} {f : Fault} (h : runFor n s = .unfinished u)
    (hf : step u = .fault f) : runFor (n + 1) s = .faulted f := by
  rw [runFor_add, h, RunEnd.andThen]
  exact runFor_succ_of_fault hf 0

/-- Settles O40: a fault's state is that of the fetch or that of the advance, and the fault is raised in the state the
earlier steps gave. -/
theorem faultsArePrecise : Obligations.FaultsArePrecise :=
  ⟨fun _ _ => step_fault_left_cases, fun _ _ _ _ => runFor_succ_of_unfinished_of_fault⟩

end Sys2Proof.Machine
end

section
/-! Reset and the start of a run (70_reset_and_hazards.md R170, R171; 10_state.md R34), and the words that the spec
writes out (95_test_vectors.md). -/

namespace Sys2Proof.Machine

/-! ### Reset -/

/-- A fresh Machine has the invariant: it differs from a launch state in its run state, of which the invariant does not
speak (R34, R170). -/
theorem IsFresh.inv {s : State} (h : IsFresh s) : Inv s := by
  obtain ⟨hpc, hir, -, hrest⟩ := h
  have hlaunch : IsLaunch { s with run := some .running } := ⟨hpc, hir, rfl, hrest⟩
  exact hlaunch.inv

/-- Settles O45: a constructed Machine with sizes in bounds is fresh, and the two sizes of `Config` are in bounds. -/
theorem resetHasTheInvariant : Obligations.ResetHasTheInvariant :=
  ⟨fun _ _ hm hm' hn hn' => (resetWith_isFresh hm hm' hn hn').inv, rfl,
    (resetWith_isFresh (by decide) le_rfl (by decide) le_rfl).inv⟩

/-- Every register reads zero after construction, the hard-wired one without its slot (R23, R170). -/
theorem readReg_resetWith (m n : Nat) (r : RegIdx) : readReg (State.resetWith m n) r = 0 := by
  unfold readReg
  split
  · rfl
  · simp only [resetWith_regs, Vector.getElem_replicate]

/-- Run of a Machine whose `pc` is still zero changes the run state only (R170). -/
theorem hostRun_of_pc_zero {s : State} (hpc : s.pc = 0) (hrun : s.run = none) :
    hostRun s = some { s with run := some .running } :=
  hostRun_eq_some.mpr ⟨hrun, by rw [← hpc]⟩

/-- Settles O48: construction lists no cell and sets no run state, so the core is stuck until Run. -/
theorem resetLeavesEverySlotZero : Obligations.ResetLeavesEverySlotZero := by
  intro m n
  have hrun : (State.resetWith m n).run ≠ some .running := by simp
  obtain ⟨hnext, hfault⟩ := step_stuck_of_not_running hrun
  exact ⟨rfl, rfl, readReg_resetWith m n, empty_read m, empty_read n, rfl, rfl, hrun, hnext, hfault,
    _, hostRun_of_pc_zero rfl rfl, rfl, rfl, onlyRunStateChanges_run _ _⟩

/-! ### The start of a run -/

/-- Byte address 0 selects slot 0 (R171). -/
theorem fetchedWord_of_pc_zero {s : State} (hpc : s.pc = 0) : fetchedWord s = s.imem.read 0 := by
  rw [fetchedWord, hpc]
  rfl

/-- Settles O52: Run sets `pc` to zero, which selects slot 0, and a step leaves the fetched word in `ir`. -/
theorem runsStartAtSlotZero : Obligations.RunsStartAtSlotZero := by
  refine ⟨fun s t h => ?_, fun s hs => ?_⟩
  · obtain ⟨-, rfl⟩ := hostRun_eq_some.mp h
    rfl
  · have ⟨hpc, _⟩ := hs
    have hword := fetchedWord_of_pc_zero hpc
    exact ⟨hpc, hs.fetchInRange, hword, fun t ht => (step_next_ir ht).trans hword⟩

/-! ### The words of the spec -/

/-- Settles O7: eleven of the words are encodings, which decode inverts, and the other two select no row. -/
theorem specWordsDecode : Obligations.SpecWordsDecode :=
  ⟨decode_encode (.add 10 11 9 0), decode_encode (.and 5 6 8 0), decode_encode (.jr 7 0 0 0),
    decode_encode (.syscall 31 31 31 31), decode_encode (.j 67108863), decode_encode (.beq 1 1 15),
    decode_encode (.addi 9 12 0xFFEC), decode_encode (.andi 9 8 100), decode_encode (.lw 1 4 0),
    decode_encode (.sw 4 5 20), decode_encode (.jal 2), decode_zero, by decide⟩

end Sys2Proof.Machine
end
